-- ==== Sys2Proof/Word.lean ====
section
/-! DEFINITION. The bit-vector types of the CORE: register bytes, the 16-bit word that is at once
opcode, program counter and stack entry, and the operand fields of an opcode. -/

namespace Sys2Proof

/-- A register or a memory byte (R7, R40). -/
abbrev Byte := BitVec 8

/-- An opcode (R11), a program counter or a call-stack entry (R10). -/
abbrev Word := BitVec 16

/-- A register field `x` or `y`: every value names a register (R6, R64). -/
abbrev RegIndex := BitVec 4

/-- The `addr` field of format A (R62). -/
abbrev Target := BitVec 12

end Sys2Proof
end

