-- ==== Sys2Proof/Config.lean ====
section
/-! DEFINITION. The parameters an implementation fixes (00_scope.md section 4). The spec leaves two of
them open, MEM_SIZE (R8, D23) and STACK_DEPTH (R9, D24), and settles the rest. No value of this
hardware is free: R88. -/

namespace Sys2Proof

/-- NUM_REGS, fixed by the 4-bit register fields (R6). -/
abbrev numRegs : Nat := 16

/-- The open parameters. A machine carries its own in `State.cfg`, so that a statement about every
state is a statement about every admissible MEM_SIZE and STACK_DEPTH. -/
structure Config where
  /-- MEM_SIZE, in bytes (R8). -/
  memSize : Nat
  /-- STACK_DEPTH, in slots (R9). -/
  stackDepth : Nat
  deriving DecidableEq, Repr

/-- The reference design (R8, R9). -/
def Config.reference : Config where
  memSize := 4096
  stackDepth := 16

end Sys2Proof
end

