-- ==== Sys2Proof/Syntax.lean ====
section
/-! DEFINITION. The instructions: one constructor per row of spec/opcode_table.json. -/

namespace Sys2Proof

/-- The four operations (R66). The operands are the fields the encoding has, at their exact widths
(R64, R65). A word that selects no operation is no instruction: the decoder rejects it (R70). -/
inductive Instr where
  /-- HALT, the exact word `0x0000` (R100). -/
  | halt
  /-- RET, the exact word `0x00EE` (R125). -/
  | ret
  /-- ADD Vx, Vy, the words `0x8xy4` (R110). -/
  | add (x y : RegIndex)
  /-- CALL addr, the words `0x2nnn` (R120). -/
  | call (addr : Target)
  deriving DecidableEq, Repr

end Sys2Proof
end

