-- ==== Sys2Proof/WellFormed.lean ====
section
/-! DEFINITION. What must be checked before the machine sees it: the parameters (R8, R9), the
construction input (R170) and assembly text (R74, R75).

An `Instr` needs no check: its operand fields have the widths of the encoding, so every value of
the type has an encoding (R64). Out-of-range operands exist only in assembly text, which the
assembler refuses and the CORE never sees (R75). -/

namespace Sys2Proof

/-- The bounds a model's parameters satisfy: `2 <= MEM_SIZE <= 0xFFFF` (R8), `STACK_DEPTH >= 1` (R9). -/
abbrev Config.WellFormed (c : Config) : Prop :=
  2 ≤ c.memSize ∧ c.memSize ≤ 0xFFFF ∧ 1 ≤ c.stackDepth

/-- The construction input (R170), as the host sends it: numbers, so that an out-of-range one can
be refused. -/
structure Construction where
  /-- Register index to value; an index not listed defaults to 0 (R23). -/
  regs : List (Nat × Nat) := []
  /-- The memory image, from address 0 on (R40). -/
  image : List Byte := []
  /-- The initial program counter (R27). -/
  pc : Nat := 0
  deriving DecidableEq, Repr

/-- The input that construction accepts (R170, D10). DESIGN CHOICE (safe, log 12): the mapping from
index to value is a list that gives no index twice. -/
abbrev Construction.WellFormed (cfg : Config) (c : Construction) : Prop :=
  c.image.length ≤ cfg.memSize ∧
  (∀ r ∈ c.regs, r.1 < numRegs) ∧
  (∀ r ∈ c.regs, r.2 ≤ 255) ∧
  c.pc ≤ 0xFFFF ∧
  (c.regs.map Prod.fst).Nodup

/-- An instruction of assembly text (R74), its operands the numbers that were written. -/
inductive Asm where
  | halt
  | ret
  | add (x y : Nat)
  | call (a : Nat)
  deriving DecidableEq, Repr

/-- The operand ranges of R74: `x`, `y` in 0..15, `a` in 0x000..0xFFF. -/
def Asm.wellFormed : Asm → Bool
  | .halt => true
  | .ret => true
  | .add x y => decide (x < numRegs) && decide (y < numRegs)
  | .call a => decide (a ≤ 0xFFF)

/-- A line of an assembly program: an instruction or one of the two directives (R74). -/
inductive AsmLine where
  | instr (i : Asm)
  /-- `.org a`: sets the address of the next item. -/
  | org (a : Nat)
  /-- `.word w`: places the 16-bit word `w`. -/
  | word (w : Nat)
  deriving DecidableEq, Repr

/-- The lines the assembler accepts: a `.word` is a 16-bit word (R74), an instruction is in range (R75). -/
def AsmLine.wellFormed : AsmLine → Bool
  | .instr i => i.wellFormed
  | .org _ => true
  | .word w => decide (w ≤ 0xFFFF)

end Sys2Proof
end

