-- ==== Sys2Proof/Decode.lean ====
section
/-! DEFINITION. The decoder DEC and the dispatcher DSP (30_encoding.md), from a word, from bytes and
from the opcode table's own numbering; then the encoder and the assembler, from the same tables. -/

namespace Sys2Proof

/-! ### The decoder (R63) -/

/-- The five fields every word has (R60, R63). -/
structure Fields where
  major : BitVec 4
  x : RegIndex
  y : RegIndex
  minor : BitVec 4
  addr : Target
  deriving DecidableEq, Repr

/-- DEC (R63): pure and total, and all five fields for every word (C3). -/
def decodeFields (op : Word) : Fields where
  major := op.extractLsb' 12 4
  x := op.extractLsb' 8 4
  y := op.extractLsb' 4 4
  minor := op.extractLsb' 0 4
  addr := op.extractLsb' 0 12

/-! ### The dispatcher (R66, R67) -/

/-- The dispatcher's output `op_sel` (R14). -/
inductive OpSel where
  | halt
  | ret
  | add
  | call
  | unimpl
  deriving DecidableEq, Repr

/-- DSP, the pseudocode of R67. -/
def dispatch (op : Word) (major minor : BitVec 4) : OpSel :=
  if op = 0x0000#16 then .halt
  else if op = 0x00EE#16 then .ret
  else if major = 0x8#4 ∧ minor = 0x4#4 then .add
  else if major = 0x2#4 then .call
  else .unimpl

/-- What the dispatcher selects for a word. -/
def selectOp (op : Word) : OpSel :=
  dispatch op (decodeFields op).major (decodeFields op).minor

/-- Why bytes are no instruction. -/
inductive DecodeReject where
  /-- The word selects UNIMPL; it is carried exactly (R70). -/
  | unimplementedOpcode (op : Word)
  /-- Fewer than the two bytes of an instruction (R73). -/
  | truncated (bytes : Nat)
  deriving DecidableEq, Repr

/-- The instruction of a word: the selected operation with the fields it uses (R65). -/
def decode (op : Word) : Except DecodeReject Instr :=
  match selectOp op with
  | .halt => .ok .halt
  | .ret => .ok .ret
  | .add => .ok (.add (decodeFields op).x (decodeFields op).y)
  | .call => .ok (.call (decodeFields op).addr)
  | .unimpl => .error (.unimplementedOpcode op)

/-! ### Bytes (R43, R60) -/

/-- The word of two consecutive bytes, the high byte at the lower address (R43). -/
def wordOfBytes (hi lo : Byte) : Word := hi ++ lo

/-- A word as it lies in memory, the high byte first (R43, R74). -/
def bytesOfWord (w : Word) : List Byte := [w.extractLsb' 8 8, w.extractLsb' 0 8]

/-- The first instruction of a list of bytes, and the bytes after it. -/
def decodeBytes : List Byte → Except DecodeReject (Instr × List Byte)
  | hi :: lo :: rest =>
    match decode (wordOfBytes hi lo) with
    | .ok i => .ok (i, rest)
    | .error r => .error r
  | short => .error (.truncated short.length)

/-- The instruction of a word numbered as spec/opcode_table.json numbers it. Every row is one 16-bit
word, stored high byte first, so longer words are refused and the bits above `nbits` are 0. -/
def decodeTableWord (nbits w : Nat) : Option Instr :=
  if nbits ≤ 16 then
    match decodeBytes (bytesOfWord (BitVec.ofNat 16 (w % 2 ^ nbits))) with
    | .ok (i, []) => some i
    | _ => none
  else none

/-! ### The encoder -/

/-- The word of an instruction: formats R and A and the two exact words (R61, R62, R74). -/
def encode : Instr → Word
  | .halt => 0x0000#16
  | .ret => 0x00EE#16
  | .add x y => 0x8#4 ++ x ++ y ++ 0x4#4
  | .call a => 0x2#4 ++ a

/-- The two bytes of an instruction. -/
def encodeBytes (i : Instr) : List Byte := bytesOfWord (encode i)

/-! ### The opcode table as data -/

/-- A row of spec/opcode_table.json: a word matches when its bits under `mask` are `pattern`. -/
structure OpcodeRow where
  mnemonic : String
  pattern : Word
  mask : Word
  opSel : OpSel
  deriving DecidableEq, Repr

/-- spec/opcode_table.json, in its dispatch order (R66). -/
def opcodeTable : List OpcodeRow :=
  [ { mnemonic := "HALT", pattern := 0x0000#16, mask := 0xFFFF#16, opSel := .halt },
    { mnemonic := "RET", pattern := 0x00EE#16, mask := 0xFFFF#16, opSel := .ret },
    { mnemonic := "ADD", pattern := 0x8004#16, mask := 0xF00F#16, opSel := .add },
    { mnemonic := "CALL", pattern := 0x2000#16, mask := 0xF000#16, opSel := .call } ]

/-- Whether a word matches a row. -/
def OpcodeRow.hits (row : OpcodeRow) (op : Word) : Bool := op &&& row.mask == row.pattern

/-- "evaluated first-match-wins" (R66): the first matching row's operation, UNIMPL if there is none. -/
def firstMatch : List OpcodeRow → Word → OpSel
  | [], _ => .unimpl
  | row :: rows, op => if row.hits op then row.opSel else firstMatch rows op

/-! ### The assembler (R74, R75), notation for programs only -/

/-- An instruction of assembly text, refused when an operand has no encoding (R75). -/
def Asm.assemble (i : Asm) : Option Instr :=
  if i.wellFormed then
    match i with
    | .halt => some .halt
    | .ret => some .ret
    | .add x y => some (.add (BitVec.ofNat 4 x) (BitVec.ofNat 4 y))
    | .call a => some (.call (BitVec.ofNat 12 a))
  else none

/-- A byte written into an image, which grows by zero bytes to reach it. -/
def setImageByte (img : List Byte) (a : Nat) (b : Byte) : List Byte :=
  (img ++ List.replicate (a + 1 - img.length) 0).set a b

/-- A word placed big-endian (R74). -/
def placeImageWord (img : List Byte) (a : Nat) (w : Word) : List Byte :=
  setImageByte (setImageByte img a (w.extractLsb' 8 8)) (a + 1) (w.extractLsb' 0 8)

/-- The image of the lines from address `a` on, over the image so far; `none` if a line is refused.
DESIGN CHOICE (safe, log 13): where lines overlap, the later one stands. -/
def assembleFrom : Nat → List Byte → List AsmLine → Option (List Byte)
  | _, img, [] => some img
  | _, img, .org b :: rest => assembleFrom b img rest
  | a, img, .word w :: rest =>
    if w ≤ 0xFFFF then assembleFrom (a + 2) (placeImageWord img a (BitVec.ofNat 16 w)) rest else none
  | a, img, .instr i :: rest =>
    match i.assemble with
    | some instr => assembleFrom (a + 2) (placeImageWord img a (encode instr)) rest
    | none => none

/-- A program's image: the first item at address 0 (R48). -/
def assemble (lines : List AsmLine) : Option (List Byte) := assembleFrom 0 [] lines

/-- Text of a register: `V0`..`VF` (R74). -/
def regText (r : RegIndex) : String := "V" ++ (String.ofList [(Nat.digitChar r.toNat).toUpper])

/-- The text of an instruction, as R74 spells it. -/
def Instr.text : Instr → String
  | .halt => "HALT"
  | .ret => "RET"
  | .add x y => "ADD " ++ regText x ++ ", " ++ regText y
  | .call a => "CALL 0x" ++ String.ofList (((Nat.toDigits 16 a.toNat).map Char.toUpper).leftpad 3 '0')

end Sys2Proof
end

