-- ==== Sys2Proof/Machine/State.lean ====
section
/-! DEFINITION. The architectural state (10_state.md, 20_memory.md), as plain data, and its reset
values (R38). -/

namespace Sys2Proof.Machine

/-- Memory in one canonical form: addresses strictly rising, no entry equal to `unlistedByte`. -/
abbrev Memory := List Host.Cell

/-- What an address not listed reads as: "remainder zero-filled" (R40). -/
def unlistedByte : Byte := 0#8

/-- The run status (R32). -/
inductive Status where
  | running
  | halted
  | faulted
  deriving DecidableEq, Repr

/-- The reason of a stop (R32, R140). -/
inductive Reason where
  /-- NONE: no fault. -/
  | none
  | unimplementedOpcode
  | outOfBounds
  | stackOverflow
  | stackUnderflow
  /-- Reserved and never raised (R145). -/
  | arithmeticOverflow
  deriving DecidableEq, Repr

/-- The stop record (R32); `none` is the record's NONE. -/
structure StopRecord where
  reason : Reason
  opcode : Option Word
  stopPc : Option Word
  deriving DecidableEq, Repr

/-- The record while Running: "every field NONE" (R34). -/
def StopRecord.empty : StopRecord where
  reason := .none
  opcode := none
  stopPc := none

/-- The state of the CORE. `cfg` holds the two open parameters (R8, R9): fixed for a machine, and
written by no step. -/
structure State where
  cfg : Config
  /-- `V[0..15]` (R20). -/
  regs : Vector Byte numRegs
  /-- The program counter (R25). -/
  pc : Word
  /-- `stack[0..STACK_DEPTH-1]`, slot 0 first (R29). -/
  stack : List Word
  /-- The next free slot, `0..STACK_DEPTH` (R30). -/
  sp : Nat
  status : Status
  stop : StopRecord
  /-- `MEM[0..MEM_SIZE-1]` (R40). -/
  mem : Memory
  deriving DecidableEq, Repr

/-- What stops the model itself. The four faults of the CORE are NOT here: the spec describes the
state each of them leaves (R13, R143), so they are next states with `status = faulted`. -/
inductive Fault where
  /-- Raised by CALL and RET (`execCall`, `execRet`) when the slot they need is not in the list
  `State.stack`. Safe: such a list is shorter than STACK_DEPTH, which no state of the hardware is
  (R29), and from every well-formed state no step raises it. DESIGN CHOICE, log 10. -/
  | stackSlotMissing (slot : Nat)
  deriving DecidableEq, Repr

/-- Why an instruction has no meaning. -/
inductive Refusal where
  /-- Raised by `exec` alone, for an instruction whose meaning is not written. Safe. No arm raises
  it: all four instructions are modelled. -/
  | notModelled (mnemonic : String)
  deriving DecidableEq, Repr

/-- The machine after reset (R38): the reference design (log 1) constructed with nothing supplied. -/
def State.reset : State where
  cfg := Config.reference
  regs := Vector.replicate numRegs 0#8
  pc := 0#16
  stack := List.replicate 16 0#16
  sp := 0
  status := .running
  stop := StopRecord.empty
  mem := []

end Sys2Proof.Machine
end

