-- ==== Sys2Proof/Machine/Ops.lean ====
section
/-! DEFINITION. The named operations: memory, the fetch unit, the pc sequencer, the register file, the
call-stack controller, and taking a fault. -/

namespace Sys2Proof.Machine

/-! ### Memory (20_memory.md) -/

/-- The byte at an address of a memory. -/
def Memory.read : Memory → Nat → Byte
  | [], _ => unlistedByte
  | c :: m, a => if c.1 = a then c.2 else Memory.read m a

/-- A byte put before the rest of a canonical memory, unlisted if it is what unlisted reads as. -/
def Memory.consCell (a : Nat) (b : Byte) (m : Memory) : Memory :=
  if b = unlistedByte then m else (a, b) :: m

/-- Write one byte, keeping the canonical form. No instruction uses it (R45): it places a program
from outside the machine. -/
def Memory.write : Memory → Nat → Byte → Memory
  | [], a, b => Memory.consCell a b []
  | c :: m, a, b =>
    if a < c.1 then Memory.consCell a b (c :: m)
    else if c.1 = a then Memory.consCell a b m
    else c :: Memory.write m a b

/-- The memory that holds an image's bytes from an address on, and zero elsewhere (R40). -/
def Memory.loadFrom : Nat → List Byte → Memory
  | _, [] => []
  | a, b :: bs => Memory.consCell a b (Memory.loadFrom (a + 1) bs)

/-- The memory of an image (R40). -/
def Memory.load (image : List Byte) : Memory := Memory.loadFrom 0 image

/-- The canonical form: addresses strictly rising, no entry equal to what is unlisted. -/
abbrev Memory.wf (m : Memory) : Prop :=
  m.Pairwise (fun c d => c.1 < d.1) ∧ ∀ c ∈ m, c.2 ≠ unlistedByte

/-- `MemRead(a, 1)` (R12): defined for `0 <= a < MEM_SIZE` only. -/
def State.memRead (s : State) (a : Nat) : Option Byte :=
  if a < s.cfg.memSize then some (Memory.read s.mem a) else none

/-! ### The fetch unit IFU (R42, R43, R81) -/

/-- `fetch_ok` (R14): the bound check of R42, on integers, for both bytes at once. -/
def fetchable (s : State) : Bool := decide (s.pc.toNat + 1 ≤ s.cfg.memSize - 1)

/-- The opcode at the pc, high byte first (R43); nothing is read when the check fails. -/
def fetchWord (s : State) : Option Word :=
  if fetchable s then
    some (wordOfBytes (Memory.read s.mem s.pc.toNat) (Memory.read s.mem (s.pc.toNat + 1)))
  else none

/-! ### The program-counter sequencer PCS (R84, R85) -/

/-- `pc <- fa + 2`. -/
def advancePc (s : State) : State := { s with pc := s.pc + 2#16 }

/-- `pc <- target`. -/
def setPc (target : Word) (s : State) : State := { s with pc := target }

/-! ### The register file RF (R20, R22) -/

/-- `V[i]`. -/
def readReg (s : State) (i : RegIndex) : Byte := s.regs.get i.toFin

/-- `V[i] <- v`. No register is special (R21). -/
def writeReg (i : RegIndex) (v : Byte) (s : State) : State :=
  { s with regs := s.regs.set i.toNat v i.isLt }

/-! ### The call-stack controller CSC (R127, R128) -/

/-- The signal `full` (R127). -/
def stackFull (s : State) : Bool := s.sp == s.cfg.stackDepth

/-- The signal `empty` (R128). -/
def stackEmpty (s : State) : Bool := s.sp == 0

/-- `stack[sp] <- v; sp <- sp + 1` (R127); `none` where its requirement `sp < STACK_DEPTH` fails or
the slot is missing. -/
def push (v : Word) (s : State) : Option State :=
  if s.sp < s.cfg.stackDepth ∧ s.sp < s.stack.length then
    some { s with stack := s.stack.set s.sp v, sp := s.sp + 1 }
  else none

/-- `sp <- sp - 1; return stack[sp]` (R128): the value and the state; the slot keeps its value (R37).
`none` where its requirement `sp > 0` fails or the slot is missing. -/
def pop (s : State) : Option (Word × State) :=
  match s.sp with
  | 0 => none
  | n + 1 =>
    match s.stack[n]? with
    | some v => some (v, { s with sp := n })
    | none => none

/-- The live return addresses `stack[0..sp-1]`, oldest first (R30). -/
def liveStack (s : State) : List Word := s.stack.take s.sp

/-! ### Ending a run -/

/-- `status <- Halted; stop <- (NONE, op, fa)` (R100). -/
def endHalted (op fa : Word) (s : State) : State :=
  { s with status := .halted, stop := { reason := .none, opcode := some op, stopPc := some fa } }

/-- Taking a fault, `raise Fault(r, o, a)` (R13, R87, R143): `pc <- a` undoes the advance, the only
change a step may have made before it; `status <- Faulted`; `stop <- (r, o, a)`. -/
def faultState (r : Reason) (o : Option Word) (a : Word) (s : State) : State :=
  { s with pc := a, status := .faulted, stop := { reason := r, opcode := o, stopPc := some a } }

/-- A fault as the outcome of a step. There is no return from it: a fault is terminal (R149). -/
def raiseFault (r : Reason) (o : Option Word) (a : Word) (s : State) :
    Host.Outcome State Fault Refusal :=
  .next (faultState r o a s)

/-- The fetch's fault: no opcode was assembled (R81, D6). -/
def raiseOutOfBounds (s : State) : Host.Outcome State Fault Refusal :=
  raiseFault .outOfBounds none s.pc s

/-- UNIMPL (R86): the fault of a word that matches no rule, taken after the advance. -/
def raiseUnimplemented (op : Word) (s : State) : Host.Outcome State Fault Refusal :=
  raiseFault .unimplementedOpcode (some op) s.pc (advancePc s)

/-! ### Placing a word to be fetched -/

/-- A program word laid where the next step fetches it, the machine set running there. It stands for
a construction that supplies the word in its image (R170, log 14); a pc with no room for two bytes
(R42) has nowhere to put it. -/
def placeWord (w : Word) (s : State) : State :=
  if fetchable s then
    { s with
      mem := Memory.write (Memory.write s.mem s.pc.toNat (w.extractLsb' 8 8))
        (s.pc.toNat + 1) (w.extractLsb' 0 8)
      status := .running
      stop := StopRecord.empty }
  else s

end Sys2Proof.Machine
end

