-- ==== Sys2Proof/Machine/Operands.lean ====
section
/-! DEFINITION. The operand forms (R64): two register indices and one zero-extended address. No form is
signed, scaled or shifted, and there is no immediate data operand. -/

namespace Sys2Proof.Machine

/-- The target of a CALL: `zext_16(addr)` (R64). -/
def callTarget (a : Target) : Word := a.setWidth 16

/-- The two source operands of format R, both read before any write (R110). -/
def regOperands (x y : RegIndex) (s : State) : Byte × Byte := (readReg s x, readReg s y)

end Sys2Proof.Machine
end

