-- ==== Sys2Proof/Machine/Arith.lean ====
section
/-! DEFINITION. The ALU and ADD (42_arithmetic.md). -/

namespace Sys2Proof.Machine

/-- The ALU's one operation, `sum(a, b) = (a + b) mod 256` on unsigned bytes (R112). -/
def aluSum (a b : Byte) : Byte := BitVec.ofNat 8 ((a.toNat + b.toNat) % 256)

/-- ADD Vx, Vy (R110): the 8-bit wrapping sum into `V[x]`; no carry, no fault (R111, R145). -/
def execAdd (x y : RegIndex) (s : State) : Host.Outcome State Fault Refusal :=
  let s := advancePc s
  let ab := regOperands x y s
  .next (writeReg x (aluSum ab.1 ab.2) s)

end Sys2Proof.Machine
end

