-- ==== Sys2Proof/Machine/Control.lean ====
section
/-! DEFINITION. HALT (41_halt.md), CALL and RET (43_subroutine.md). Each meaning starts from the state at
the fetch, where the pc is the fetch address `fa`, and advances the pc before anything else (R84).
The word a stop record names is the instruction's own encoding, which is the word that was fetched:
a word decodes to one instruction and that instruction encodes to it (log 11). -/

namespace Sys2Proof.Machine

/-- HALT (R100): the run ends with success. The pc keeps its advance (C1). -/
def execHalt (s : State) : Host.Outcome State Fault Refusal :=
  .next (endHalted (encode .halt) s.pc (advancePc s))

/-- CALL addr (R120): push the advanced pc, then jump; StackOverflow on a full stack (R121). The
target is not checked (R122). -/
def execCall (addr : Target) (s : State) : Host.Outcome State Fault Refusal :=
  let fa := s.pc
  let s := advancePc s
  match stackFull s with
  | true => raiseFault .stackOverflow (some (encode (.call addr))) fa s
  | false =>
    match push s.pc s with
    | some s => .next (setPc (callTarget addr) s)
    | none => .fault (.stackSlotMissing s.sp)

/-- RET (R125): pop into the pc; StackUnderflow on an empty stack (R126). The popped value is not
checked. -/
def execRet (s : State) : Host.Outcome State Fault Refusal :=
  let fa := s.pc
  let s := advancePc s
  match stackEmpty s with
  | true => raiseFault .stackUnderflow (some (encode .ret)) fa s
  | false =>
    match pop s with
    | some (v, s) => .next (setPc v s)
    | none => .fault (.stackSlotMissing (s.sp - 1))

end Sys2Proof.Machine
end

