-- ==== Sys2Proof/Machine/Dispatch.lean ====
section
/-! DEFINITION. One arm per instruction: "select and invoke exactly one registered operation" (R83). -/

namespace Sys2Proof.Machine

def exec (i : Instr) (s : State) : Host.Outcome State Fault Refusal :=
  match i with
  | .halt => Sys2Proof.Machine.execHalt s
  | .ret => Sys2Proof.Machine.execRet s
  | .add x y => Sys2Proof.Machine.execAdd x y s
  | .call addr => Sys2Proof.Machine.execCall addr s

end Sys2Proof.Machine
end

