-- ==== Sys2Proof/Machine/Step.lean ====
section
/-! DEFINITION. The step of the CORE (40_instruction_cycle.md): fetch, decode, then one operation. -/

namespace Sys2Proof.Machine

/-- One step (R87). In a terminal state it changes nothing (R94). -/
def step (s : State) : Host.Outcome State Fault Refusal :=
  match s.status with
  | .halted => .next s
  | .faulted => .next s
  | .running =>
    match fetchWord s with
    | none => raiseOutOfBounds s
    | some op =>
      match decode op with
      | .ok i => exec i s
      | .error _ => raiseUnimplemented op s

/-- `s` with the instruction of bits `w`, `nbits` of them, where the next step fetches it. An
instruction is one 16-bit word (R11); the bits above `nbits` are 0. -/
def State.withFetchWord (s : State) (nbits w : Nat) : State :=
  placeWord (BitVec.ofNat 16 (w % 2 ^ nbits)) s

end Sys2Proof.Machine
end

