-- ==== Sys2Proof/Machine/Flags.lean ====
section
/-! DEFINITION. The CORE has no flags, condition codes or predicates, and no instruction reads or
writes one (R24), so there is no flag computation to write. What stands here are the numeric codes
of its only status state, `status` and `stop.reason` (R33, D15). -/

namespace Sys2Proof.Machine

/-- Status codes (R33). -/
def Status.code : Status → Nat
  | .running => 0
  | .halted => 1
  | .faulted => 2

/-- Reason codes (R33, R140). -/
def Reason.code : Reason → Nat
  | .none => 0
  | .unimplementedOpcode => 1
  | .outOfBounds => 2
  | .stackOverflow => 3
  | .stackUnderflow => 4
  | .arithmeticOverflow => 5

end Sys2Proof.Machine
end

