-- ==== Sys2Proof/Machine/HostInterface.lean ====
section
/-! DEFINITION. The host interface (R15, R176): construction, the run request and its outcome, the
single step under a host's limit, and observation. -/

namespace Sys2Proof.Machine

/-! ### Construction, the only reset (R170, R171) -/

/-- Why construction refuses its input; no run starts (R170, D10). -/
inductive ConstructRefusal where
  /-- The parameters are outside the bounds of R8 and R9. -/
  | parameters
  | imageTooLong
  | registerIndex
  | registerValue
  | programCounter
  /-- The register mapping gives one index twice: no mapping (log 12). -/
  | registerTwice
  deriving DecidableEq, Repr

/-- The value the input supplies for a register, 0 where it supplies none (R23). -/
def suppliedReg (c : Construction) (i : Nat) : Nat := (c.regs.lookup i).getD 0

/-- The state construction sets up (R38). -/
def constructed (cfg : Config) (c : Construction) : State where
  cfg := cfg
  regs := Vector.ofFn fun i => BitVec.ofNat 8 (suppliedReg c i.val)
  pc := BitVec.ofNat 16 c.pc
  stack := List.replicate cfg.stackDepth 0#16
  sp := 0
  status := .running
  stop := StopRecord.empty
  mem := Memory.load c.image

/-- Construction, or the first refusal that applies (R170). -/
def construct (cfg : Config) (c : Construction) : Except ConstructRefusal State :=
  if ¬ cfg.WellFormed then .error .parameters
  else if ¬ c.image.length ≤ cfg.memSize then .error .imageTooLong
  else if ¬ ∀ r ∈ c.regs, r.1 < numRegs then .error .registerIndex
  else if ¬ ∀ r ∈ c.regs, r.2 ≤ 255 then .error .registerValue
  else if ¬ c.pc ≤ 0xFFFF then .error .programCounter
  else if ¬ (c.regs.map Prod.fst).Nodup then .error .registerTwice
  else .ok (constructed cfg c)

/-! ### Running (R90, R93, R95) -/

/-- Step while Running, at most `limit` steps: the run under a host's step limit (R95). A run that
the limit stops is still Running (D14). -/
def runWithin : Nat → State → Host.Outcome State Fault Refusal
  | 0, s => .next s
  | limit + 1, s =>
    match s.status with
    | .halted => .next s
    | .faulted => .next s
    | .running =>
      match step s with
      | .next t => runWithin limit t
      | .fault f => .fault f
      | .refused r => .refused r

/-- A number of steps within which every run ends, since every run does (R91). DEDUCED (safe, log 15):
at one stack depth the pc only rises, and each CALL opens one run of the depth above it. -/
def runBound (cfg : Config) : Nat :=
  (cfg.stackDepth + 1) * (cfg.memSize + 1) ^ (cfg.stackDepth + 1)

/-- `run()` (R90): steps until the state is terminal. -/
def run (s : State) : Host.Outcome State Fault Refusal := runWithin (runBound s.cfg) s

/-- The Outcome of a run (R93). -/
inductive RunOutcome where
  | halted
  | faulted (reason : Reason) (offendingOpcode : Option Word) (programCounter : Word)
  deriving DecidableEq, Repr

/-- The Outcome a terminal state reports; none while Running (R93, D14). -/
def outcomeOf (s : State) : Option RunOutcome :=
  match s.status, s.stop.stopPc with
  | .halted, _ => some .halted
  | .faulted, some a => some (.faulted s.stop.reason s.stop.opcode a)
  | .faulted, none => none
  | .running, _ => none

/-! ### Observation (R175) -/

/-- What a host may read: no slot at or above `sp`. -/
structure Observation where
  regs : Vector Byte numRegs
  mem : Memory
  pc : Word
  sp : Nat
  liveStack : List Word
  status : Status
  stop : StopRecord
  deriving DecidableEq, Repr

/-- The observation of a state. -/
def observe (s : State) : Observation where
  regs := s.regs
  mem := s.mem
  pc := s.pc
  sp := s.sp
  liveStack := liveStack s
  status := s.status
  stop := s.stop

end Sys2Proof.Machine
end

