-- ==== Sys2Proof/Safety.lean ====
section
/-! DEFINITION. What the hardware's states are, and what a step must keep: the terms the statements
use. -/

namespace Sys2Proof.Machine

/-- A state the hardware can be described to be in: parameters in their bounds, memory in its
canonical form within the address space, a stack of STACK_DEPTH slots and `0 <= sp <= STACK_DEPTH`
(R8, R9, R29, R30, R40). -/
abbrev State.WellFormed (s : State) : Prop :=
  s.cfg.WellFormed ∧ Memory.wf s.mem ∧ (∀ c ∈ s.mem, c.1 < s.cfg.memSize) ∧
  s.stack.length = s.cfg.stackDepth ∧ s.sp ≤ s.cfg.stackDepth

/-- A fault record that says what happened (R140): the reason, its cause in the state (which the
fault left as it was), and the opcode that goes with it. -/
def faultRecordFits (s : State) : Bool :=
  match s.stop.reason, s.stop.opcode with
  | .outOfBounds, none => !fetchable s
  | .unimplementedOpcode, some op => selectOp op == .unimpl && fetchWord s == some op
  | .stackOverflow, some op => selectOp op == .call && fetchWord s == some op && stackFull s
  | .stackUnderflow, some op => op == 0x00EE#16 && fetchWord s == some op && stackEmpty s
  | _, _ => false

/-- The stop record that goes with the status (R32, R34): empty while Running; after HALT the word
0x0000 and its address, two below the advanced pc; after a fault the pc itself, which was restored. -/
def stopFits (s : State) : Bool :=
  match s.status with
  | .running => s.stop == StopRecord.empty
  | .halted =>
    s.stop == { reason := .none, opcode := some 0x0000#16, stopPc := some (s.pc - 2#16) }
  | .faulted => s.stop.stopPc == some s.pc && faultRecordFits s

/-- Every live return address is an address a fetch can have advanced to (R26, R125). -/
def returnsFit (s : State) : Bool := (liveStack s).all fun v => decide (v.toNat ≤ s.cfg.memSize)

/-- The invariant of the machine: a well-formed state, whose live return addresses fit the memory and
whose stop record fits the status. -/
abbrev Inv (s : State) : Prop := s.WellFormed ∧ returnsFit s = true ∧ stopFits s = true

/-- Two states that differ at most in the slots at or above `sp`, which nothing reads (R37, R128). -/
def SameButDeadSlots (s t : State) : Prop :=
  s.cfg = t.cfg ∧ s.stack.length = t.stack.length ∧ observe s = observe t

/-- The state with another register file. -/
def State.withRegs (s : State) (r : Vector Byte numRegs) : State := { s with regs := r }

/-- Executing instructions one after another, stopping at the first that gives no next state. -/
def execAll : List Instr → State → Host.Outcome State Fault Refusal
  | [], s => .next s
  | i :: is, s =>
    match exec i s with
    | .next t => execAll is t
    | .fault f => .fault f
    | .refused r => .refused r

end Sys2Proof.Machine
end

