-- ==== Sys2Proof/Certificates/Slice0/Obligations.lean ====
section
/-! DEFINITION. The statements for the provers. "D<n>" is a row of 92_eei_decisions.md, the spec's own
decision where the source is silent: a statement that rests on one says so, and so does one that
rests on a rule the spec marks as derived. -/

open Sys2Proof Sys2Proof.Machine

/-! ### Encoding, decoding and dispatch (30_encoding.md) -/

/-- No bit of an encoding is dropped: every instruction, with every operand value, is what its word
decodes to, and what the first two bytes decode to in a longer run of bytes. -/
def Obligations.DecodeOfEncodeIsIdentity : Prop :=
  ∀ (i : Instr) (rest : List Byte),
    decode (encode i) = .ok i ∧ decodeBytes (encodeBytes i ++ rest) = .ok (i, rest)

/-- A word has one meaning: the instruction a word decodes to encodes to that word. So the opcode a
stop record takes from `encode` is the opcode that was fetched (log 11). -/
def Obligations.EncodeOfDecodeIsIdentity : Prop :=
  ∀ (w : Word) (i : Instr), decode w = .ok i → encode i = w

/-- R66: the ordered match rules, first match wins. The dispatcher gives the first rule's operation,
with the rules as conditions on the number, and as the rows of spec/opcode_table.json. -/
def Obligations.DispatchIsFirstMatchingRule : Prop :=
  ∀ w : Word,
    selectOp w = firstMatch opcodeTable w ∧
    selectOp w =
      if w.toNat = 0x0000 then .halt
      else if w.toNat = 0x00EE then .ret
      else if w.toNat / 0x1000 = 0x8 ∧ w.toNat % 0x10 = 0x4 then .add
      else if 0x2000 ≤ w.toNat ∧ w.toNat ≤ 0x2FFF then .call
      else .unimpl

/-- R68: the opcode map, word by word, in numbers. -/
def Obligations.OpcodeMapOfEveryWord : Prop :=
  ∀ w : Word,
    (decode w = .ok .halt ↔ w.toNat = 0x0000) ∧
    (decode w = .ok .ret ↔ w.toNat = 0x00EE) ∧
    (∀ x y : RegIndex,
      decode w = .ok (.add x y) ↔ w.toNat = 0x8000 + 0x100 * x.toNat + 0x10 * y.toNat + 0x4) ∧
    (∀ a : Target, decode w = .ok (.call a) ↔ w.toNat = 0x2000 + a.toNat) ∧
    (decode w = .error (.unimplementedOpcode w) ↔
      (w.toNat ≤ 0x0FFF ∧ w.toNat ≠ 0x0000 ∧ w.toNat ≠ 0x00EE) ∨
      (0x1000 ≤ w.toNat ∧ w.toNat ≤ 0x1FFF) ∨
      (0x3000 ≤ w.toNat ∧ w.toNat ≤ 0x7FFF) ∨
      (0x8000 ≤ w.toNat ∧ w.toNat ≤ 0x8FFF ∧ w.toNat % 0x10 ≠ 0x4) ∨
      0x9000 ≤ w.toNat)

/-- R63: the five fields of every word, as numbers. -/
def Obligations.FieldsOfEveryWord : Prop :=
  ∀ w : Word,
    (decodeFields w).major.toNat = w.toNat / 0x1000 ∧
    (decodeFields w).x.toNat = w.toNat / 0x100 % 0x10 ∧
    (decodeFields w).y.toNat = w.toNat / 0x10 % 0x10 ∧
    (decodeFields w).minor.toNat = w.toNat % 0x10 ∧
    (decodeFields w).addr.toNat = w.toNat % 0x1000

/-- 4354 words select an operation, the other 61182 select UNIMPL (a count the spec derives). -/
def Obligations.OperationWordCount : Prop :=
  (List.range 0x10000).countP (fun n => selectOp (BitVec.ofNat 16 n) != .unimpl) = 4354 ∧
  (List.range 0x10000).countP (fun n => selectOp (BitVec.ofNat 16 n) == .unimpl) = 61182

/-- Words written out bit by bit from the encodings, one or more of each instruction. The words are
D-1 to D-6, D-8 and S-3 of 95_test_vectors.md; the operation each stands for is read from the
dispatch table and the opcode map of 30_encoding.md sections 3 and 4. A sanity statement. -/
def Obligations.SpecWordsDecode : Prop :=
  decode 0b0000000000000000#16 = .ok .halt ∧
  decode 0b0000000011101110#16 = .ok .ret ∧
  decode 0b1000000000010100#16 = .ok (.add 0 1) ∧
  decode 0b1000111111100100#16 = .ok (.add 15 14) ∧
  decode 0b0010000100000000#16 = .ok (.call 0x100) ∧
  decode 0b0010111111111111#16 = .ok (.call 0xFFF) ∧
  decode 0b0001001000110100#16 = .error (.unimplementedOpcode 0x1234) ∧
  decode 0b0000000011100000#16 = .error (.unimplementedOpcode 0x00E0)

/-- The assembler (notation only, the spec's own choice D16): an operand in range has the encoding of
the table in R74, one out of range has none. -/
def Obligations.AssemblerEncodesOperandsInRange : Prop :=
  (∃ i, Asm.halt.assemble = some i ∧ (encode i).toNat = 0x0000) ∧
  (∃ i, Asm.ret.assemble = some i ∧ (encode i).toNat = 0x00EE) ∧
  (∀ x y : Nat, x ≤ 15 → y ≤ 15 → ∃ i, (Asm.add x y).assemble = some i ∧
    (encode i).toNat = 0x8000 ||| x <<< 8 ||| y <<< 4 ||| 0x4) ∧
  (∀ x y : Nat, 15 < x ∨ 15 < y → (Asm.add x y).assemble = none) ∧
  (∀ a : Nat, a ≤ 0xFFF → ∃ i, (Asm.call a).assemble = some i ∧
    (encode i).toNat = 0x2000 ||| a) ∧
  (∀ a : Nat, 0xFFF < a → (Asm.call a).assemble = none)

/-! ### The fetch and the step (20_memory.md, 40_instruction_cycle.md) -/

/-- R43: the opcode is the byte at the pc, then the byte after it, whatever the pc (odd ones too).
Where the two bytes are not both in memory, no opcode is assembled. -/
def Obligations.FetchIsBigEndian : Prop :=
  ∀ s : State,
    (∀ hi lo : Byte, s.memRead s.pc.toNat = some hi → s.memRead (s.pc.toNat + 1) = some lo →
      ∃ w, fetchWord s = some w ∧ w.extractLsb' 8 8 = hi ∧ w.extractLsb' 0 8 = lo) ∧
    (s.memRead (s.pc.toNat + 1) = none → fetchWord s = none)

/-- R42: the fetch succeeds iff `pc + 1 <= MEM_SIZE - 1`, that is `pc <= MEM_SIZE - 2`; otherwise the
step faults with OutOfBounds. -/
def Obligations.FetchBoundCheck : Prop :=
  ∀ s : State, s.cfg.WellFormed →
    ((fetchWord s).isSome ↔ s.pc.toNat + 1 ≤ s.cfg.memSize - 1) ∧
    (s.pc.toNat + 1 ≤ s.cfg.memSize - 1 ↔ s.pc.toNat ≤ s.cfg.memSize - 2) ∧
    (s.status = .running → s.cfg.memSize - 2 < s.pc.toNat →
      ∃ t, step s = .next t ∧ t.status = .faulted ∧ t.stop.reason = .outOfBounds)

/-- When the two bytes at the pc decode to an instruction, the step is that instruction's `exec` at the
same state. The step adds nothing around it: `exec` starts at the fetch address and makes the
advance of the pc itself (R84, log 11). -/
def Obligations.StepRunsDecodedInstruction : Prop :=
  ∀ (s : State) (hi lo : Byte) (i : Instr),
    s.status = .running → s.memRead s.pc.toNat = some hi → s.memRead (s.pc.toNat + 1) = some lo →
    decodeBytes [hi, lo] = .ok (i, []) → step s = exec i s

/-- A step completes one instruction or ends the run (R89), and a fault leaves everything but the status
and the stop record as it was. Registers and memory are the source's words (R13); that the pc, the
stack and `sp` are kept too is the spec's own choice (R13, D5, log 4). -/
def Obligations.EveryStepCompletesOrEndsRun : Prop :=
  ∀ s : State, s.WellFormed → s.status = .running →
    ∃ t, step s = .next t ∧
      ((t.status = .running ∧
          ∃ w i, fetchWord s = some w ∧ decode w = .ok i ∧ exec i s = .next t) ∨
        t.status = .halted ∨
        (t.status = .faulted ∧ t.regs = s.regs ∧ t.mem = s.mem ∧ t.stack = s.stack ∧ t.sp = s.sp ∧
          t.pc = s.pc ∧ t.cfg = s.cfg))

/-- The advanced pc never wraps and never passes MEM_SIZE (a rule the spec derives, R26). -/
def Obligations.PcAdvanceNeverWraps : Prop :=
  ∀ (s : State) (w : Word), s.cfg.WellFormed → fetchWord s = some w →
    (advancePc s).pc.toNat = s.pc.toNat + 2 ∧ (advancePc s).pc.toNat ≤ s.cfg.memSize

/-- The pc at the end of a step, row by row of the next-pc table. That a fault restores the fetch
address is the spec's own choice (D5). -/
def Obligations.NextPcTable : Prop :=
  ∀ s t : State, s.WellFormed → s.status = .running → step s = .next t →
    (fetchWord s = none → t.pc = s.pc) ∧
    ∀ w, fetchWord s = some w →
      (decode w = .ok .halt → t.pc.toNat = s.pc.toNat + 2) ∧
      (∀ x y, decode w = .ok (.add x y) → t.pc.toNat = s.pc.toNat + 2) ∧
      (∀ a, decode w = .ok (.call a) →
        (s.sp < s.cfg.stackDepth → t.pc.toNat = a.toNat) ∧
        (s.sp = s.cfg.stackDepth → t.pc = s.pc)) ∧
      (decode w = .ok .ret →
        (0 < s.sp → s.stack[s.sp - 1]? = some t.pc) ∧ (s.sp = 0 → t.pc = s.pc)) ∧
      (decode w = .error (.unimplementedOpcode w) → t.pc = s.pc)

/-! ### The instructions (41_halt.md, 42_arithmetic.md, 43_subroutine.md) -/

/-- HALT completes in every state, with its whole next state and its frame. What `stop` records on a
HALT is the spec's own addition (D4); the advanced pc is 90_conflicts.md C1. -/
def Obligations.HaltResult : Prop :=
  ∀ s : State, ∃ t, exec .halt s = .next t ∧
    t.status = .halted ∧
    t.stop = { reason := .none, opcode := some 0x0000, stopPc := some s.pc } ∧
    t.pc = s.pc + 2 ∧
    (s.cfg.WellFormed → fetchWord s = some 0x0000 → t.pc.toNat = s.pc.toNat + 2) ∧
    (∀ i, readReg t i = readReg s i) ∧ t.sp = s.sp ∧ t.stack = s.stack ∧ t.cfg = s.cfg ∧
    (∀ a, t.memRead a = s.memRead a)

/-- R102: HALT, the word 0x0000, is the only way to end a run with success; after it the registers and
memory are observable and no further step changes state. -/
def Obligations.HaltIsTheOnlySuccess : Prop :=
  ∀ s t : State, s.status = .running → step s = .next t →
    (t.status = .halted ↔ fetchWord s = some 0x0000) ∧
    (t.status = .halted →
      (observe t).regs = s.regs ∧ (observe t).mem = s.mem ∧ step t = .next t)

/-- R110 and R111: ADD completes for every state and every pair of registers, `x = y` and `x = 15`
among them: the sum modulo 256 of the old values into `V[x]`, the pc past the instruction, and
nothing else, no carry in `V[15]` or anywhere. -/
def Obligations.AddResult : Prop :=
  ∀ (s : State) (x y : RegIndex), ∃ t, exec (.add x y) s = .next t ∧
    (readReg t x).toNat = ((readReg s x).toNat + (readReg s y).toNat) % 256 ∧
    (∀ z, z ≠ x → readReg t z = readReg s z) ∧
    t.pc = s.pc + 2 ∧
    t.sp = s.sp ∧ t.stack = s.stack ∧ t.status = s.status ∧ t.stop = s.stop ∧ t.cfg = s.cfg ∧
    (∀ a, t.memRead a = s.memRead a)

/-- R112: the ALU law, unsigned and as two's complement, and the source's testable property of ADD. -/
def Obligations.AluSumIsModulo256 : Prop :=
  (∀ a b : Byte,
    (aluSum a b).toNat = (a.toNat + b.toNat) % 256 ∧
    (aluSum a b).toInt = (a.toInt + b.toInt).bmod 256) ∧
  ∀ (s t : State) (x y : RegIndex), exec (.add x y) s = .next t →
    (readReg t x).toNat = ((readReg s x).toNat + (readReg s y).toNat) % 256 ∧
    (x ≠ y → readReg t y = readReg s y)

/-- CALL (R120) completes on every stack with a free slot: the advanced pc into slot `sp`, `sp` up by
one, the pc at the zero-extended address, nothing else. On a full stack (R121) it raises
`Fault(StackOverflow, op, fa)`: that the record holds the fetch address is the spec's own choice
(D4, log 3), and so is that the pc, the stack and `sp` are kept (D5, log 4). -/
def Obligations.CallResult : Prop :=
  ∀ (s : State) (a : Target),
    (s.sp < s.cfg.stackDepth → s.stack.length = s.cfg.stackDepth →
      ∃ t, exec (.call a) s = .next t ∧
        t.pc.toNat = a.toNat ∧
        t.sp = s.sp + 1 ∧
        t.stack.length = s.stack.length ∧
        t.stack[s.sp]? = some (s.pc + 2) ∧
        (∀ k, k ≠ s.sp → t.stack[k]? = s.stack[k]?) ∧
        (∀ i, readReg t i = readReg s i) ∧
        t.status = s.status ∧ t.stop = s.stop ∧ t.cfg = s.cfg ∧
        (∀ b, t.memRead b = s.memRead b)) ∧
    (s.sp = s.cfg.stackDepth →
      ∃ t, exec (.call a) s = .next t ∧ t.status = .faulted ∧
        t.stop = { reason := .stackOverflow, opcode := some (encode (.call a)), stopPc := some s.pc } ∧
        t.pc = s.pc ∧ t.sp = s.sp ∧ t.stack = s.stack ∧
        (∀ i, readReg t i = readReg s i) ∧ t.cfg = s.cfg ∧
        (∀ b, t.memRead b = s.memRead b))

/-- RET (R125) completes on every stack that is not empty: the pc at the popped value, whatever it is,
`sp` down by one, every slot as it was, nothing else. On an empty stack (R126) it raises
`Fault(StackUnderflow, op, fa)`: that the record holds the fetch address is the spec's own choice
(D4, log 3), and so is that the pc, the stack and `sp` are kept (D5, log 4). -/
def Obligations.RetResult : Prop :=
  ∀ s : State,
    (∀ v : Word, 0 < s.sp → s.stack[s.sp - 1]? = some v →
      ∃ t, exec .ret s = .next t ∧
        t.pc = v ∧
        t.sp + 1 = s.sp ∧
        t.stack = s.stack ∧
        (∀ i, readReg t i = readReg s i) ∧
        t.status = s.status ∧ t.stop = s.stop ∧ t.cfg = s.cfg ∧
        (∀ b, t.memRead b = s.memRead b)) ∧
    (s.sp = 0 →
      ∃ t, exec .ret s = .next t ∧ t.status = .faulted ∧
        t.stop = { reason := .stackUnderflow, opcode := some 0x00EE, stopPc := some s.pc } ∧
        t.pc = s.pc ∧ t.sp = s.sp ∧ t.stack = s.stack ∧
        (∀ i, readReg t i = readReg s i) ∧ t.cfg = s.cfg ∧
        (∀ b, t.memRead b = s.memRead b))

/-- R22: HALT, CALL and RET neither read nor write any register (another register file changes nothing
but itself); ADD writes `V[x]` alone, and from `V[x]` and `V[y]` alone. -/
def Obligations.OnlyAddTouchesRegisters : Prop :=
  (∀ (i : Instr) (s t : State) (r : Vector Byte numRegs),
    (i = .halt ∨ i = .ret ∨ ∃ a, i = .call a) → exec i s = .next t →
      t.regs = s.regs ∧ exec i (s.withRegs r) = .next (t.withRegs r)) ∧
  ∀ (x y : RegIndex) (s s' t t' : State),
    readReg s x = readReg s' x → readReg s y = readReg s' y →
    exec (.add x y) s = .next t → exec (.add x y) s' = .next t' →
      readReg t x = readReg t' x ∧ ∀ z, z ≠ x → readReg t z = readReg s z

/-! ### The call stack (43_subroutine.md) -/

/-- R127: push, below STACK_DEPTH, writes slot `sp` and no other; `full` is `sp = STACK_DEPTH`, and then
there is no push. -/
def Obligations.PushWritesTheFreeSlot : Prop :=
  ∀ (s : State) (v : Word), s.WellFormed →
    (s.sp < s.cfg.stackDepth → ∃ t, push v s = some t ∧
      t.sp = s.sp + 1 ∧ t.stack[s.sp]? = some v ∧
      (∀ k, k ≠ s.sp → t.stack[k]? = s.stack[k]?) ∧ t.pc = s.pc ∧ t.regs = s.regs ∧ t.mem = s.mem) ∧
    (stackFull s = true ↔ s.sp = s.cfg.stackDepth) ∧
    (stackFull s = true → push v s = none)

/-- R128: pop, above 0, gives slot `sp - 1`; `empty` is `sp = 0`, and then there is no pop. And no
instruction reads a slot at or above `sp`: two machines that differ in those slots alone step alike. -/
def Obligations.OnlyLiveSlotsAreRead : Prop :=
  (∀ s : State, s.WellFormed →
    (0 < s.sp → ∃ v t, pop s = some (v, t) ∧ s.stack[s.sp - 1]? = some v ∧ t.sp + 1 = s.sp) ∧
    (stackEmpty s = true ↔ s.sp = 0) ∧
    (stackEmpty s = true → pop s = none)) ∧
  ∀ s s' t : State, s.WellFormed → s'.WellFormed → SameButDeadSlots s s' → step s = .next t →
    ∃ t', step s' = .next t' ∧ SameButDeadSlots t t'

/-- CALL on a full stack and RET on an empty one are outcomes, not aborts (R144): the run ends with the
reason, and the state is kept for inspection. Registers and memory are the source's words (R13);
that the stack and `sp` are kept is the spec's own choice (R13, R121, R126, D5, log 4). -/
def Obligations.StackFaultsAreOutcomes : Prop :=
  ∀ s : State,
    (∀ a : Target, s.sp = s.cfg.stackDepth → ∃ t, exec (.call a) s = .next t ∧
      t.status = .faulted ∧ t.stop.reason = .stackOverflow ∧
      t.regs = s.regs ∧ t.mem = s.mem ∧ t.stack = s.stack ∧ t.sp = s.sp) ∧
    (s.sp = 0 → ∃ t, exec .ret s = .next t ∧
      t.status = .faulted ∧ t.stop.reason = .stackUnderflow ∧
      t.regs = s.regs ∧ t.mem = s.mem ∧ t.stack = s.stack ∧ t.sp = s.sp)

/-- The CALL target is not checked (the spec's own choice, D8): one with no room for an opcode is
reached, and the next step faults OutOfBounds. That the fault keeps the pc at the target and the
return address on the stack is the spec's own choice too (D5, log 4). -/
def Obligations.CallTargetIsNotChecked : Prop :=
  ∀ (s : State) (a : Target), s.WellFormed → s.status = .running → s.sp < s.cfg.stackDepth →
    s.cfg.memSize - 2 < a.toNat →
      ∃ t u, exec (.call a) s = .next t ∧ t.status = .running ∧ step t = .next u ∧
        u.status = .faulted ∧ u.stop.reason = .outOfBounds ∧ u.pc.toNat = a.toNat ∧
        u.sp = s.sp + 1

/-- STACK_DEPTH nested CALLs succeed, to whatever targets, and the next one faults (R130, a rule the
spec derives). That it keeps the stack and `sp` is the spec's own choice (R121, D5, log 4). -/
def Obligations.NestedCallsUpToDepth : Prop :=
  ∀ (s : State) (targets : List Target), s.WellFormed → s.sp = 0 →
    targets.length = s.cfg.stackDepth →
      ∃ t, execAll (targets.map Instr.call) s = .next t ∧ t.sp = s.cfg.stackDepth ∧
        t.status = s.status ∧
        ∀ a, ∃ u, exec (.call a) t = .next u ∧ u.status = .faulted ∧
          u.stop.reason = .stackOverflow ∧ u.sp = t.sp ∧ u.stack = t.stack

/-- The round-trip law (R129, a rule the spec derives): after a CALL, through any steps that never drop
below the depth it left and end at that depth, a RET goes to the instruction after the CALL and
restores `sp`. With no steps between, it is CALL followed immediately by RET. -/
def Obligations.CallReturnRoundTrip : Prop :=
  ∀ (s t u : State) (a : Target) (n : Nat),
    s.WellFormed → s.sp < s.cfg.stackDepth → exec (.call a) s = .next t →
    (∀ (k : Nat) (v : State), k ≤ n → core.run k t = .next v → t.sp ≤ v.sp) →
    core.run n t = .next u → u.sp = t.sp →
      ∃ r, exec .ret u = .next r ∧ r.pc = s.pc + 2 ∧ r.sp = s.sp

/-! ### Faults (60_exceptions.md) -/

/-- R70: executing a word that selects UNIMPL ends the run with the UnimplementedOpcode fault carrying
that exact value. -/
def Obligations.UnimplementedWordFaults : Prop :=
  ∀ (s : State) (w : Word), s.status = .running → fetchWord s = some w → selectOp w = .unimpl →
    ∃ t, step s = .next t ∧ t.status = .faulted ∧ t.stop.reason = .unimplementedOpcode ∧
      t.stop.opcode = some w

/-- Taking a fault changes the status and the stop record alone. That the pc and the stack are restored
(D5), that stop_pc is the fetch address (D4) and that an OutOfBounds fault records no opcode (D6)
are the spec's own choices. -/
def Obligations.FaultsArePrecise : Prop :=
  ∀ s t : State, s.status = .running → step s = .next t → t.status = .faulted →
    t = { s with status := .faulted, stop := t.stop } ∧
    t.stop.stopPc = some s.pc ∧
    t.stop.opcode = fetchWord s ∧
    (t.stop.reason = .outOfBounds ↔ t.stop.opcode = none)

/-- Which fault a step takes, and when: exactly one cause each, OutOfBounds before all others (R140 and
R146; the spec marks the second as derived). -/
def Obligations.FaultCauses : Prop :=
  ∀ s t : State, s.WellFormed → s.status = .running → step s = .next t →
    (t.status = .faulted ∧ t.stop.reason = .outOfBounds ↔ s.cfg.memSize < s.pc.toNat + 2) ∧
    (t.status = .faulted ∧ t.stop.reason = .unimplementedOpcode ↔
      ∃ w, fetchWord s = some w ∧ firstMatch opcodeTable w = .unimpl) ∧
    (t.status = .faulted ∧ t.stop.reason = .stackOverflow ↔
      ∃ a, fetchWord s = some (encode (.call a)) ∧ s.sp = s.cfg.stackDepth) ∧
    (t.status = .faulted ∧ t.stop.reason = .stackUnderflow ↔
      fetchWord s = some 0x00EE ∧ s.sp = 0)

/-- R145: ArithmeticOverflow is reserved as code 5 and no step raises it. -/
def Obligations.ArithmeticOverflowNeverRaised : Prop :=
  Reason.code .arithmeticOverflow = 5 ∧
  ∀ s t : State, step s = .next t → s.stop.reason ≠ .arithmeticOverflow →
    t.stop.reason ≠ .arithmeticOverflow

/-- A terminal state is kept by every further step (the spec's own choice, D9). -/
def Obligations.TerminalStatesAbsorb : Prop :=
  ∀ (s : State) (n : Nat), s.status = .halted ∨ s.status = .faulted → core.run n s = .next s

/-! ### Whole-machine rules -/

/-- R45: no instruction writes memory, so memory keeps its contents for the whole run, at every
address. -/
def Obligations.MemoryIsNeverWritten : Prop :=
  (∀ (i : Instr) (s t : State), exec i s = .next t → ∀ a, t.memRead a = s.memRead a) ∧
  ∀ (n : Nat) (s t : State), core.run n s = .next t → t.mem = s.mem ∧ ∀ a, t.memRead a = s.memRead a

/-- The parameters and the number of stack slots never change, and an instruction moves `sp` by one at
most (read from R8, R9, R29, R127 and R128). -/
def Obligations.ParametersAreFixed : Prop :=
  ∀ s t : State, step s = .next t →
    t.cfg = s.cfg ∧ t.stack.length = s.stack.length ∧ t.sp ≤ s.sp + 1 ∧ s.sp ≤ t.sp + 1

/-- Registers never influence control: with any other register file a run visits the same pcs, stacks,
status and stop record (read from the argument of R91, which the spec derives). -/
def Obligations.RegistersNeverSteerControl : Prop :=
  ∀ (n : Nat) (s t : State) (r : Vector Byte numRegs), core.run n s = .next t →
    ∃ r', core.run n (s.withRegs r) = .next (t.withRegs r')

/-- The invariant holds of the machine right after reset. -/
def Obligations.InvHoldsAtReset : Prop := Inv State.reset

/-- Every step keeps the invariant: the parameters stay in bounds, memory stays canonical and within the
address space, `0 <= sp <= STACK_DEPTH` (R30), every live return address is at most MEM_SIZE, and the
stop record fits the status and its cause (its content is the spec's own choice, D4 and D6, and so is
the restored pc it is held against, D5). -/
def Obligations.StepKeepsInv : Prop :=
  ∀ s t : State, Inv s → step s = .next t → Inv t

/-- Equal memories are equal data: two canonical memories that read alike at every address are the same
list. The canonical form is the model's (log 16). -/
def Obligations.CanonicalMemoriesAgree : Prop :=
  ∀ m n : Memory, Memory.wf m → Memory.wf n → (∀ a, Memory.read m a = Memory.read n a) → m = n

/-- Every run ends: from every state of the invariant, `run` reaches a terminal state (R91, a rule the
spec derives; the number of steps `runBound` is the model's, log 15), and the Outcome tells which
(R93): Halted exactly for a Halted end, Faulted with the record's reason, opcode and stop_pc exactly
for a Faulted one (what the record holds is the spec's own choice, D4, log 3). -/
def Obligations.RunAlwaysEnds : Prop :=
  ∀ s : State, Inv s →
    ∃ t, run s = .next t ∧ t.status ≠ .running ∧
      (outcomeOf t = some .halted ↔ t.status = .halted) ∧
      (∀ (r : Reason) (o : Option Word) (a : Word), outcomeOf t = some (.faulted r o a) ↔
        t.status = .faulted ∧ t.stop.reason = r ∧ t.stop.opcode = o ∧ t.stop.stopPc = some a) ∧
      (outcomeOf t).isSome = true ∧ Inv t

/-- Single steps and the run agree: steps that reach a terminal state reach the state `run` gives; steps
that stop short of one leave no Outcome (the spec's own choice, D14). -/
def Obligations.SingleStepsAgreeWithRun : Prop :=
  ∀ (n : Nat) (s t : State), Inv s → core.run n s = .next t →
    (t.status ≠ .running → run s = .next t) ∧ (t.status = .running → outcomeOf t = none)

/-! ### Reset and the host (70_reset_and_hazards.md) -/

/-- R23: every register takes the value the construction input supplies for its index, 0 where it
supplies none. -/
def Obligations.RegistersHoldSuppliedOrZero : Prop :=
  ∀ (cfg : Config) (c : Construction) (s : State), construct cfg c = .ok s →
    ∀ i : RegIndex,
      (∀ v, (i.toNat, v) ∈ c.regs → (readReg s i).toNat = v) ∧
      ((∀ v, (i.toNat, v) ∉ c.regs) → readReg s i = 0)

/-- Construction accepts exactly the input in range (the spec's own choice, D10; that the register
mapping gives no index twice is the model's, log 12) and parameters in their bounds. -/
def Obligations.ConstructionAcceptsInputInRange : Prop :=
  ∀ (cfg : Config) (c : Construction),
    (∃ s, construct cfg c = .ok s) ↔
      (2 ≤ cfg.memSize ∧ cfg.memSize ≤ 0xFFFF ∧ 1 ≤ cfg.stackDepth) ∧
      c.image.length ≤ cfg.memSize ∧ (∀ i v, (i, v) ∈ c.regs → i ≤ 15 ∧ v ≤ 255) ∧
      c.pc ≤ 0xFFFF ∧ (c.regs.map Prod.fst).Nodup

/-- The rest of what construction leaves (R38): memory is the image, the remainder zero; the pc as
supplied; an empty stack, its slots 0 (the spec's own choice, D12); Running, with an empty stop
record. And the invariant holds. -/
def Obligations.ConstructedState : Prop :=
  ∀ (cfg : Config) (c : Construction) (s : State), construct cfg c = .ok s →
    s.cfg = cfg ∧ s.pc.toNat = c.pc ∧ s.sp = 0 ∧
    (∀ k, k < cfg.stackDepth → s.stack[k]? = some 0) ∧
    s.status = .running ∧ s.stop = { reason := .none, opcode := none, stopPc := none } ∧
    (∀ a, a < cfg.memSize → s.memRead a = some (c.image.getD a 0)) ∧
    (∀ a, cfg.memSize ≤ a → s.memRead a = none) ∧
    Inv s

/-- After any run the memory the host observes is the construction image (R53, derived by the spec). -/
def Obligations.RunKeepsConstructionImage : Prop :=
  ∀ (cfg : Config) (c : Construction) (s t : State) (n : Nat), construct cfg c = .ok s →
    core.run n s = .next t →
      ∀ a, a < cfg.memSize → t.memRead a = some (c.image.getD a 0)

/-- Memory past the image halts (R101, derived by the spec): a fetch there, wherever two bytes fit, ends
the run Halted, with the pc two above. -/
def Obligations.ZeroFilledMemoryHalts : Prop :=
  ∀ (cfg : Config) (c : Construction) (s t : State) (n : Nat), construct cfg c = .ok s →
    core.run n s = .next t → t.status = .running → c.image.length ≤ t.pc.toNat →
    t.pc.toNat ≤ cfg.memSize - 2 →
      ∃ u, step t = .next u ∧ u.status = .halted ∧ u.pc.toNat = t.pc.toNat + 2 ∧ u.regs = t.regs
end

