-- ==== Sys2Proof/Laws/Decode.lean ====
section
/-! SUPPORT. The words the decoder and the encoder build, as numbers. -/

namespace Sys2Proof

/-- Big-endian: the first byte counts 256 times (R43). -/
theorem wordOfBytes_toNat (hi lo : Byte) :
    (wordOfBytes hi lo).toNat = 0x100 * hi.toNat + lo.toNat := by
  rw [wordOfBytes, BitVec.toNat_append, ← Nat.shiftLeft_add_eq_or_of_lt lo.isLt, Nat.shiftLeft_eq]
  omega

/-- The word of an ADD (R74). -/
theorem encode_add_toNat (x y : RegIndex) :
    (encode (.add x y)).toNat = 0x8000 + 0x100 * x.toNat + 0x10 * y.toNat + 0x4 := by
  simp only [encode, BitVec.toNat_append]
  rw [← Nat.shiftLeft_add_eq_or_of_lt x.isLt, ← Nat.shiftLeft_add_eq_or_of_lt y.isLt,
    ← Nat.shiftLeft_add_eq_or_of_lt (BitVec.isLt 0x4#4)]
  simp only [Nat.shiftLeft_eq, BitVec.toNat_ofNat]
  omega

/-- The word of a CALL (R74). -/
theorem encode_call_toNat (a : Target) : (encode (.call a)).toNat = 0x2000 + a.toNat := by
  simp only [encode, BitVec.toNat_append]
  rw [← Nat.shiftLeft_add_eq_or_of_lt a.isLt]
  rfl

end Sys2Proof
end

