-- ==== Sys2Proof/Laws/Memory.lean ====
section
/-! SUPPORT. Memory: every operation keeps the canonical form, and what each address reads as after it. -/

namespace Sys2Proof.Machine

/-- Every listed address lies above `a`. -/
def Memory.Above (a : Nat) (m : Memory) : Prop := ∀ c ∈ m, a < c.1

theorem Memory.read_of_above {m : Memory} {a : Nat} (h : Memory.Above a m) :
    Memory.read m a = unlistedByte := by
  induction m with
  | nil => rfl
  | cons c m ih =>
    have hc := h c (by simp)
    have hm : Memory.Above a m := fun d hd => h d (by simp [hd])
    simp [Memory.read, Nat.ne_of_gt hc, ih hm]

theorem Memory.wf_cons {c : Host.Cell} {m : Memory} :
    Memory.wf (c :: m) ↔ Memory.Above c.1 m ∧ c.2 ≠ unlistedByte ∧ Memory.wf m := by
  simp only [Memory.wf, List.pairwise_cons, List.mem_cons, forall_eq_or_imp, Memory.Above]
  tauto

theorem Memory.wf_consCell {a : Nat} {b : Byte} {m : Memory} (hm : Memory.wf m)
    (ha : Memory.Above a m) : Memory.wf (Memory.consCell a b m) := by
  unfold Memory.consCell
  split
  · exact hm
  · exact Memory.wf_cons.mpr ⟨ha, ‹_›, hm⟩

/-- The read of a byte put in front. -/
theorem Memory.read_consCell {a x : Nat} {b : Byte} {m : Memory} (ha : Memory.Above a m) :
    Memory.read (Memory.consCell a b m) x = if x = a then b else Memory.read m x := by
  unfold Memory.consCell
  by_cases hb : b = unlistedByte
  · by_cases hx : x = a
    · subst hx; simp [hb, Memory.read_of_above ha]
    · simp [hb, hx]
  · by_cases hx : x = a
    · simp [hb, hx, Memory.read]
    · simp [hb, hx, Memory.read, Ne.symm hx]

theorem Memory.mem_consCell {a : Nat} {b : Byte} {m : Memory} {c : Host.Cell}
    (h : c ∈ Memory.consCell a b m) : c.1 = a ∨ c ∈ m := by
  unfold Memory.consCell at h
  split at h
  · exact .inr h
  · rcases List.mem_cons.mp h with rfl | h
    · exact .inl rfl
    · exact .inr h

/-- A write lists no address but the written one and those listed before. -/
theorem Memory.mem_write {m : Memory} {a : Nat} {b : Byte} {c : Host.Cell}
    (h : c ∈ Memory.write m a b) : c.1 = a ∨ c ∈ m := by
  induction m with
  | nil => exact Memory.mem_consCell h
  | cons d m ih =>
    unfold Memory.write at h
    split at h
    · exact Memory.mem_consCell h
    · split at h
      · exact (Memory.mem_consCell h).imp_right (List.mem_cons_of_mem _)
      · rcases List.mem_cons.mp h with rfl | h
        · exact .inr (by simp)
        · exact (ih h).imp_right (List.mem_cons_of_mem _)

/-- A write keeps the canonical form. -/
theorem Memory.wf_write {m : Memory} (hm : Memory.wf m) (a : Nat) (b : Byte) :
    Memory.wf (Memory.write m a b) := by
  induction m with
  | nil => exact Memory.wf_consCell hm (by simp [Memory.Above])
  | cons c m ih =>
    obtain ⟨hab, hne, hw⟩ := Memory.wf_cons.mp hm
    unfold Memory.write
    split
    · rename_i hlt
      refine Memory.wf_consCell hm fun d hd => ?_
      rcases List.mem_cons.mp hd with rfl | hd
      · exact hlt
      · exact Nat.lt_trans hlt (hab d hd)
    · split
      · rename_i _ heq
        exact Memory.wf_consCell hw (heq ▸ hab)
      · rename_i hlt hne'
        refine Memory.wf_cons.mpr ⟨fun d hd => ?_, hne, ih hw⟩
        rcases Memory.mem_write hd with h | h
        · omega
        · exact hab d h

/-- After a write the written address reads as the byte written, every other as before. -/
theorem Memory.read_write {m : Memory} (hm : Memory.wf m) (a x : Nat) (b : Byte) :
    Memory.read (Memory.write m a b) x = if x = a then b else Memory.read m x := by
  induction m with
  | nil => exact Memory.read_consCell (by simp [Memory.Above])
  | cons c m ih =>
    obtain ⟨hab, hne, hw⟩ := Memory.wf_cons.mp hm
    unfold Memory.write
    split
    · rename_i hlt
      refine Memory.read_consCell fun d hd => ?_
      rcases List.mem_cons.mp hd with rfl | hd
      · exact hlt
      · exact Nat.lt_trans hlt (hab d hd)
    · split
      · rename_i _ heq
        rw [Memory.read_consCell (heq ▸ hab)]
        by_cases hx : x = a
        · simp [hx]
        · simp [hx, Memory.read, heq, Ne.symm hx]
      · rename_i hlt hne'
        by_cases hx : c.1 = x
        · simp [Memory.read, hx, hx ▸ hne']
        · simp [Memory.read, hx, ih hw]

theorem Memory.above_loadFrom {a n : Nat} (bs : List Byte) (h : a < n) :
    Memory.Above a (Memory.loadFrom n bs) := by
  induction bs generalizing n with
  | nil => simp [Memory.Above, Memory.loadFrom]
  | cons b bs ih =>
    intro c hc
    rcases Memory.mem_consCell hc with h' | h'
    · omega
    · exact ih (Nat.lt_succ_of_lt h) c h'

theorem Memory.wf_loadFrom (n : Nat) (bs : List Byte) : Memory.wf (Memory.loadFrom n bs) := by
  induction bs generalizing n with
  | nil => simp [Memory.wf, Memory.loadFrom]
  | cons b bs ih => exact Memory.wf_consCell (ih _) (Memory.above_loadFrom bs (Nat.lt_succ_self n))

/-- An image is loaded in the canonical form. -/
theorem Memory.wf_load (image : List Byte) : Memory.wf (Memory.load image) :=
  Memory.wf_loadFrom 0 image

theorem Memory.read_loadFrom (n x : Nat) (bs : List Byte) :
    Memory.read (Memory.loadFrom n bs) (n + x) = bs.getD x unlistedByte := by
  induction bs generalizing n x with
  | nil => simp [Memory.loadFrom, Memory.read]
  | cons b bs ih =>
    rw [Memory.loadFrom, Memory.read_consCell (Memory.above_loadFrom bs (Nat.lt_succ_self n))]
    cases x with
    | zero => simp
    | succ x =>
      have := ih (n + 1) x
      rw [show n + 1 + x = n + (x + 1) by omega] at this
      simp [this]

/-- Every address reads as the image's byte, and as zero past the image (R40). -/
theorem Memory.read_load (image : List Byte) (a : Nat) :
    Memory.read (Memory.load image) a = image.getD a unlistedByte := by
  simpa [Memory.load] using Memory.read_loadFrom 0 a image

theorem Memory.mem_loadFrom {n : Nat} {bs : List Byte} {c : Host.Cell}
    (h : c ∈ Memory.loadFrom n bs) : c.1 < n + bs.length := by
  induction bs generalizing n with
  | nil => simp [Memory.loadFrom] at h
  | cons b bs ih =>
    simp only [List.length_cons]
    rcases Memory.mem_consCell h with h' | h'
    · omega
    · have := ih h'; omega

/-- Placing a word keeps the canonical form. -/
theorem placeWord_mem_wf (w : Word) {s : State} (h : Memory.wf s.mem) :
    Memory.wf (placeWord w s).mem := by
  unfold placeWord
  split
  · exact Memory.wf_write (Memory.wf_write h _ _) _ _
  · exact h

end Sys2Proof.Machine
end

