-- ==== Sys2Proof/Laws/State.lean ====
section
/-! SUPPORT. What each update of the state leaves in each field, so that no later proof unfolds one. -/

namespace Sys2Proof.Machine

variable (s : State)

@[simp] theorem advancePc_cfg : (advancePc s).cfg = s.cfg := rfl
@[simp] theorem advancePc_regs : (advancePc s).regs = s.regs := rfl
@[simp] theorem advancePc_pc : (advancePc s).pc = s.pc + 2#16 := rfl
@[simp] theorem advancePc_stack : (advancePc s).stack = s.stack := rfl
@[simp] theorem advancePc_sp : (advancePc s).sp = s.sp := rfl
@[simp] theorem advancePc_status : (advancePc s).status = s.status := rfl
@[simp] theorem advancePc_stop : (advancePc s).stop = s.stop := rfl
@[simp] theorem advancePc_mem : (advancePc s).mem = s.mem := rfl

@[simp] theorem setPc_cfg (v : Word) : (setPc v s).cfg = s.cfg := rfl
@[simp] theorem setPc_regs (v : Word) : (setPc v s).regs = s.regs := rfl
@[simp] theorem setPc_pc (v : Word) : (setPc v s).pc = v := rfl
@[simp] theorem setPc_stack (v : Word) : (setPc v s).stack = s.stack := rfl
@[simp] theorem setPc_sp (v : Word) : (setPc v s).sp = s.sp := rfl
@[simp] theorem setPc_status (v : Word) : (setPc v s).status = s.status := rfl
@[simp] theorem setPc_stop (v : Word) : (setPc v s).stop = s.stop := rfl
@[simp] theorem setPc_mem (v : Word) : (setPc v s).mem = s.mem := rfl

@[simp] theorem writeReg_cfg (i : RegIndex) (v : Byte) : (writeReg i v s).cfg = s.cfg := rfl
@[simp] theorem writeReg_regs (i : RegIndex) (v : Byte) : (writeReg i v s).regs = s.regs.set i.toNat v i.isLt := rfl
@[simp] theorem writeReg_pc (i : RegIndex) (v : Byte) : (writeReg i v s).pc = s.pc := rfl
@[simp] theorem writeReg_stack (i : RegIndex) (v : Byte) : (writeReg i v s).stack = s.stack := rfl
@[simp] theorem writeReg_sp (i : RegIndex) (v : Byte) : (writeReg i v s).sp = s.sp := rfl
@[simp] theorem writeReg_status (i : RegIndex) (v : Byte) : (writeReg i v s).status = s.status := rfl
@[simp] theorem writeReg_stop (i : RegIndex) (v : Byte) : (writeReg i v s).stop = s.stop := rfl
@[simp] theorem writeReg_mem (i : RegIndex) (v : Byte) : (writeReg i v s).mem = s.mem := rfl

@[simp] theorem endHalted_cfg (op fa : Word) : (endHalted op fa s).cfg = s.cfg := rfl
@[simp] theorem endHalted_regs (op fa : Word) : (endHalted op fa s).regs = s.regs := rfl
@[simp] theorem endHalted_pc (op fa : Word) : (endHalted op fa s).pc = s.pc := rfl
@[simp] theorem endHalted_stack (op fa : Word) : (endHalted op fa s).stack = s.stack := rfl
@[simp] theorem endHalted_sp (op fa : Word) : (endHalted op fa s).sp = s.sp := rfl
@[simp] theorem endHalted_status (op fa : Word) : (endHalted op fa s).status = .halted := rfl
@[simp] theorem endHalted_stop (op fa : Word) : (endHalted op fa s).stop = { reason := .none, opcode := some op, stopPc := some fa } := rfl
@[simp] theorem endHalted_mem (op fa : Word) : (endHalted op fa s).mem = s.mem := rfl

@[simp] theorem faultState_cfg (r : Reason) (o : Option Word) (a : Word) : (faultState r o a s).cfg = s.cfg := rfl
@[simp] theorem faultState_regs (r : Reason) (o : Option Word) (a : Word) : (faultState r o a s).regs = s.regs := rfl
@[simp] theorem faultState_pc (r : Reason) (o : Option Word) (a : Word) : (faultState r o a s).pc = a := rfl
@[simp] theorem faultState_stack (r : Reason) (o : Option Word) (a : Word) : (faultState r o a s).stack = s.stack := rfl
@[simp] theorem faultState_sp (r : Reason) (o : Option Word) (a : Word) : (faultState r o a s).sp = s.sp := rfl
@[simp] theorem faultState_status (r : Reason) (o : Option Word) (a : Word) : (faultState r o a s).status = .faulted := rfl
@[simp] theorem faultState_stop (r : Reason) (o : Option Word) (a : Word) : (faultState r o a s).stop = { reason := r, opcode := o, stopPc := some a } := rfl
@[simp] theorem faultState_mem (r : Reason) (o : Option Word) (a : Word) : (faultState r o a s).mem = s.mem := rfl

@[simp] theorem withRegs_cfg (r : Vector Byte numRegs) : (s.withRegs r).cfg = s.cfg := rfl
@[simp] theorem withRegs_regs (r : Vector Byte numRegs) : (s.withRegs r).regs = r := rfl
@[simp] theorem withRegs_pc (r : Vector Byte numRegs) : (s.withRegs r).pc = s.pc := rfl
@[simp] theorem withRegs_stack (r : Vector Byte numRegs) : (s.withRegs r).stack = s.stack := rfl
@[simp] theorem withRegs_sp (r : Vector Byte numRegs) : (s.withRegs r).sp = s.sp := rfl
@[simp] theorem withRegs_status (r : Vector Byte numRegs) : (s.withRegs r).status = s.status := rfl
@[simp] theorem withRegs_stop (r : Vector Byte numRegs) : (s.withRegs r).stop = s.stop := rfl
@[simp] theorem withRegs_mem (r : Vector Byte numRegs) : (s.withRegs r).mem = s.mem := rfl

/-- A fault undoes the advance (R87). -/
@[simp] theorem faultState_advancePc (r : Reason) (o : Option Word) (a : Word) :
    faultState r o a (advancePc s) = faultState r o a s := rfl


@[simp] theorem fetchable_withRegs (r : Vector Byte numRegs) : fetchable (s.withRegs r) = fetchable s := rfl
@[simp] theorem fetchWord_withRegs (r : Vector Byte numRegs) : fetchWord (s.withRegs r) = fetchWord s := rfl
@[simp] theorem stackFull_advancePc : stackFull (advancePc s) = stackFull s := rfl
@[simp] theorem stackEmpty_advancePc : stackEmpty (advancePc s) = stackEmpty s := rfl
@[simp] theorem liveStack_advancePc : liveStack (advancePc s) = liveStack s := rfl
@[simp] theorem liveStack_writeReg (i : RegIndex) (v : Byte) : liveStack (writeReg i v s) = liveStack s := rfl
@[simp] theorem liveStack_faultState (r : Reason) (o : Option Word) (a : Word) :
    liveStack (faultState r o a s) = liveStack s := rfl
@[simp] theorem liveStack_endHalted (op fa : Word) : liveStack (endHalted op fa s) = liveStack s := rfl
@[simp] theorem readReg_advancePc (i : RegIndex) : readReg (advancePc s) i = readReg s i := rfl
@[simp] theorem readReg_setPc (v : Word) (i : RegIndex) : readReg (setPc v s) i = readReg s i := rfl

theorem returnsFit_iff : returnsFit s = true ↔ ∀ v ∈ liveStack s, v.toNat ≤ s.cfg.memSize := by
  simp [returnsFit]

/-- A register read, as an indexed read of the register file. -/
theorem readReg_eq_getElem (i : RegIndex) : readReg s i = s.regs[i.toNat]'i.isLt := rfl

/-- A register reads as what was written to it. -/
@[simp] theorem readReg_writeReg_same (i : RegIndex) (v : Byte) : readReg (writeReg i v s) i = v := by
  simp [readReg_eq_getElem]

/-- A write leaves every other register alone (R20: no register aliases another). -/
theorem readReg_writeReg_ne (i j : RegIndex) (v : Byte) (h : j ≠ i) :
    readReg (writeReg i v s) j = readReg s j := by
  have hne : i.toNat ≠ j.toNat := fun e => h (BitVec.eq_of_toNat_eq e.symm)
  simp [readReg_eq_getElem, Vector.getElem_set_ne, hne]

end Sys2Proof.Machine
end

