-- ==== Sys2Proof/Laws/Ops.lean ====
section
/-! SUPPORT. One lemma per shared operation that says once everything it can do. -/

namespace Sys2Proof.Machine

variable {s t : State}

/-! ### The fetch (R42, R43) -/

theorem fetchable_iff : fetchable s = true ↔ s.pc.toNat + 1 ≤ s.cfg.memSize - 1 := by
  simp [fetchable]

theorem fetchWord_eq_none : fetchWord s = none ↔ fetchable s = false := by
  simp [fetchWord]

theorem fetchWord_eq_some {w : Word} :
    fetchWord s = some w ↔ fetchable s = true ∧
      wordOfBytes (Memory.read s.mem s.pc.toNat) (Memory.read s.mem (s.pc.toNat + 1)) = w := by
  simp [fetchWord]

/-- The fetch looks at the parameters, the pc and memory only. -/
theorem fetchWord_congr (hc : s.cfg = t.cfg) (hp : s.pc = t.pc) (hm : s.mem = t.mem) :
    fetchWord s = fetchWord t := by
  simp [fetchWord, fetchable, hc, hp, hm]

/-! ### The call stack (R127, R128) -/

/-- All that a push can do. -/
theorem push_eq_some {v : Word} :
    push v s = some t ↔ s.sp < s.cfg.stackDepth ∧ s.sp < s.stack.length ∧
      t = { s with stack := s.stack.set s.sp v, sp := s.sp + 1 } := by
  simp [push, and_assoc, eq_comm]

/-- All that a pop can do. -/
theorem pop_eq_some {v : Word} :
    pop s = some (v, t) ↔ 0 < s.sp ∧ s.stack[s.sp - 1]? = some v ∧ t = { s with sp := s.sp - 1 } := by
  unfold pop
  split
  · rename_i h; simp [h]
  · rename_i n h
    cases hv : s.stack[n]? <;> simp [h, hv, eq_comm]

/-! ### The four meanings -/

theorem exec_halt_eq : exec .halt s = .next (endHalted (encode .halt) s.pc (advancePc s)) := rfl

theorem exec_add_eq (x y : RegIndex) :
    exec (.add x y) s =
      .next (writeReg x (aluSum (readReg s x) (readReg s y)) (advancePc s)) := rfl

/-- All that CALL can do when it answers a next state. -/
theorem exec_call_next {a : Target} (h : exec (.call a) s = .next t) :
    (s.sp = s.cfg.stackDepth ∧ t = faultState .stackOverflow (some (encode (.call a))) s.pc s) ∨
    (s.sp < s.cfg.stackDepth ∧ s.sp < s.stack.length ∧
      t = { s with pc := callTarget a, stack := s.stack.set s.sp (s.pc + 2#16), sp := s.sp + 1 }) := by
  simp only [exec, execCall, stackFull_advancePc] at h
  cases hf : stackFull s with
  | true =>
    simp only [hf, raiseFault, Host.Outcome.next.injEq, faultState_advancePc] at h
    exact .inl ⟨by simpa [stackFull] using hf, h.symm⟩
  | false =>
    simp only [hf] at h
    split at h
    · rename_i u hu
      obtain ⟨hd, hl, rfl⟩ := push_eq_some.mp hu
      cases h
      exact .inr ⟨hd, hl, rfl⟩
    · cases h

/-- All that RET can do when it answers a next state. -/
theorem exec_ret_next (h : exec .ret s = .next t) :
    (s.sp = 0 ∧ t = faultState .stackUnderflow (some (encode .ret)) s.pc s) ∨
    (0 < s.sp ∧ ∃ v, s.stack[s.sp - 1]? = some v ∧ t = { s with pc := v, sp := s.sp - 1 }) := by
  simp only [exec, execRet, stackEmpty_advancePc] at h
  cases hf : stackEmpty s with
  | true =>
    simp only [hf, raiseFault, Host.Outcome.next.injEq, faultState_advancePc] at h
    exact .inl ⟨by simpa [stackEmpty] using hf, h.symm⟩
  | false =>
    simp only [hf] at h
    split at h
    · rename_i v u hu
      obtain ⟨hp, hv, rfl⟩ := pop_eq_some.mp hu
      cases h
      exact .inr ⟨hp, v, hv, rfl⟩
    · cases h

/-! ### The step -/

theorem decode_error {op : Word} {r : DecodeReject} (h : decode op = .error r) :
    selectOp op = .unimpl ∧ r = .unimplementedOpcode op := by
  unfold decode at h
  split at h <;> simp_all

theorem decode_unimpl {op : Word} (h : selectOp op = .unimpl) :
    decode op = .error (.unimplementedOpcode op) := by
  simp [decode, h]

/-- All that a step can do when it answers a next state (R87, R94). -/
theorem step_cases (h : step s = .next t) :
    (s.status ≠ .running ∧ t = s) ∨
    (s.status = .running ∧ fetchWord s = none ∧ t = faultState .outOfBounds none s.pc s) ∨
    (s.status = .running ∧ ∃ op, fetchWord s = some op ∧ selectOp op = .unimpl ∧
      t = faultState .unimplementedOpcode (some op) s.pc s) ∨
    (s.status = .running ∧ ∃ op i, fetchWord s = some op ∧ decode op = .ok i ∧
      exec i s = .next t) := by
  unfold step at h
  split at h
  · rename_i hs; exact .inl ⟨by simp [hs], by simpa [eq_comm] using h⟩
  · rename_i hs; exact .inl ⟨by simp [hs], by simpa [eq_comm] using h⟩
  · rename_i hs
    split at h
    · rename_i hf
      exact .inr (.inl ⟨hs, hf, by simpa [raiseOutOfBounds, raiseFault, eq_comm] using h⟩)
    · rename_i op hf
      split at h
      · rename_i i hd; exact .inr (.inr (.inr ⟨hs, op, i, hf, hd, h⟩))
      · rename_i r hd
        exact .inr (.inr (.inl ⟨hs, op, hf, (decode_error hd).1,
          by simpa [raiseUnimplemented, raiseFault, eq_comm] using h⟩))

end Sys2Proof.Machine
end

