-- ==== Sys2Proof/Laws/PerInstr.lean ====
section
/-! SUPPORT. Statements made per instruction (LAWS.json). -/

namespace Sys2Proof.Laws.FixedBits

/-- The row of spec/opcode_table.json an instruction is of. -/
def rowOf : Instr → OpcodeRow
  | .halt => { mnemonic := "HALT", pattern := 0x0000#16, mask := 0xFFFF#16, opSel := .halt }
  | .ret => { mnemonic := "RET", pattern := 0x00EE#16, mask := 0xFFFF#16, opSel := .ret }
  | .add _ _ => { mnemonic := "ADD", pattern := 0x8004#16, mask := 0xF00F#16, opSel := .add }
  | .call _ => { mnemonic := "CALL", pattern := 0x2000#16, mask := 0xF000#16, opSel := .call }

/-- The instruction's row stands in the table, and its word has the row's fixed bits. -/
def Statement (i : Instr) : Prop := rowOf i ∈ opcodeTable ∧ (rowOf i).hits (encode i) = true

theorem halt : Statement .halt := by unfold Statement; decide

theorem ret : Statement .ret := by unfold Statement; decide

/-- The fixed bits of format R, whatever the operands. -/
theorem add_fixed (x y : RegIndex) : (0x8#4 ++ x ++ y ++ 0x4#4) &&& 0xF00F#16 = 0x8004#16 := by
  ext i hi
  have : i < 4 ∨ (4 ≤ i ∧ i < 8) ∨ (8 ≤ i ∧ i < 12) ∨ (12 ≤ i ∧ i < 16) := by omega
  simp only [BitVec.getElem_and, BitVec.getElem_append]
  interval_cases i <;> simp

theorem add (x y : RegIndex) : Statement (.add x y) :=
  ⟨by simp only [rowOf]; decide, by simpa [OpcodeRow.hits, rowOf, encode] using add_fixed x y⟩

/-- The fixed bits of format A, whatever the address. -/
theorem call_fixed (a : Target) : (0x2#4 ++ a) &&& 0xF000#16 = 0x2000#16 := by
  ext i hi
  simp only [BitVec.getElem_and, BitVec.getElem_append]
  interval_cases i <;> simp

theorem call (addr : Target) : Statement (.call addr) :=
  ⟨by simp only [rowOf]; decide, by simpa [OpcodeRow.hits, rowOf, encode] using call_fixed addr⟩

end Sys2Proof.Laws.FixedBits
end

