-- ==== Sys2Proof/Laws/Run.lean ====
section
/-! SUPPORT. Runs: the recursion of `core.run` and of `runWithin`, one step at a time. -/

namespace Sys2Proof.Machine

variable {s t : State} {n : Nat}

/-- A run of no steps, of any core. -/
theorem run_zero_iff (M : Host.Core) {a b : M.State} : M.run 0 a = .next b ↔ a = b := by
  simp [Host.Core.run]

/-- A run of one step more is a step and then a run, of any core. -/
theorem run_succ_iff (M : Host.Core) {a b : M.State} :
    M.run (n + 1) a = .next b ↔ ∃ c, M.step a = .next c ∧ M.run n c = .next b := by
  rw [Host.Core.run]
  cases M.step a <;> simp

theorem core_run_zero : core.run 0 s = .next t ↔ s = t := run_zero_iff core

theorem core_run_succ :
    core.run (n + 1) s = .next t ↔ ∃ u, step s = .next u ∧ core.run n u = .next t :=
  run_succ_iff core

theorem runWithin_zero : runWithin 0 s = .next s := rfl

/-- A run within a limit stays in a terminal state. -/
theorem runWithin_terminal (h : s.status ≠ .running) : runWithin n s = .next s := by
  cases n with
  | zero => rfl
  | succ n => cases hs : s.status <;> simp_all [runWithin]

/-- A run within a limit takes one step and goes on with one less. -/
theorem runWithin_succ (h : s.status = .running) (hs : step s = .next t) :
    runWithin (n + 1) s = runWithin n t := by
  simp [runWithin, h, hs]

/-- What every step keeps, every run keeps: an invariant's induction, once. -/
theorem core_run_induction {P : State → Prop} (hstep : ∀ a b, P a → step a = .next b → P b)
    (h0 : P s) (h : core.run n s = .next t) : P t := by
  induction n generalizing s with
  | zero => exact core_run_zero.mp h ▸ h0
  | succ n ih =>
    obtain ⟨u, hu, h⟩ := core_run_succ.mp h
    exact ih (hstep _ _ h0 hu) h

end Sys2Proof.Machine
end

