-- ==== Sys2Proof/Tests/Slice0.lean ====
section
/-! SUPPORT. Tests: every expected value is the spec's (95_test_vectors.md, by its ids, or the rule
named), none is the model's own answer. Then the witnesses: for every statement with hypotheses,
a concrete state and operands that meet them together. -/

namespace Sys2Proof.Tests

open Sys2Proof.Machine

/-- A small machine: an image from address 0, a pc, the live return addresses, V0 and V1. -/
def small (image : List Byte) (pc : Word) (live : List Word := []) (v0 v1 : Byte := 0) : State :=
  writeReg 1 v1 (writeReg 0 v0
    { State.reset with
      mem := Memory.load image
      pc := pc
      stack := live ++ List.replicate (16 - live.length) 0
      sp := live.length })

/-- A full call stack. -/
def full : List Word := List.replicate 16 2

/-- What a next state shows; `none` where there is no next state. -/
def after {α : Type} (o : Host.Outcome State Fault Refusal) (f : State → α) : Option α :=
  match o with
  | .next t => some (f t)
  | .fault _ => none
  | .refused _ => none

theorem next_of_after {α : Type} {o : Host.Outcome State Fault Refusal} {f : State → α} {v : α}
    (h : after o f = some v) : ∃ t, o = .next t ∧ f t = v := by
  cases o with
  | next t => exact ⟨t, rfl, by simpa [after] using h⟩
  | fault _ => simp [after] at h
  | refused _ => simp [after] at h

/-! ### WellFormed: each check refuses an ill-formed term -/

theorem test_config_memSize_low : ¬ Config.WellFormed { memSize := 1, stackDepth := 16 } := by decide
theorem test_config_memSize_high : ¬ Config.WellFormed { memSize := 0x10000, stackDepth := 16 } := by decide
theorem test_config_no_stack : ¬ Config.WellFormed { memSize := 4096, stackDepth := 0 } := by decide
theorem test_config_reference : Config.WellFormed Config.reference := by decide
theorem test_construct_image_too_long :
    construct { memSize := 2, stackDepth := 1 } { image := [1, 2, 3] } = .error .imageTooLong := by decide
theorem test_construct_register_index :
    construct Config.reference { regs := [(16, 0)] } = .error .registerIndex := by decide
theorem test_construct_register_value :
    construct Config.reference { regs := [(0, 256)] } = .error .registerValue := by decide
theorem test_construct_pc :
    construct Config.reference { pc := 0x10000 } = .error .programCounter := by decide
theorem test_construct_register_twice :
    construct Config.reference { regs := [(3, 1), (3, 2)] } = .error .registerTwice := by decide
theorem test_construct_parameters :
    construct { memSize := 1, stackDepth := 1 } {} = .error .parameters := by decide
theorem test_construction_refused :
    ¬ Construction.WellFormed { memSize := 2, stackDepth := 1 } { image := [1, 2, 3] } ∧
    ¬ Construction.WellFormed Config.reference { regs := [(16, 0)] } ∧
    ¬ Construction.WellFormed Config.reference { regs := [(0, 256)] } ∧
    ¬ Construction.WellFormed Config.reference { pc := 0x10000 } ∧
    ¬ Construction.WellFormed Config.reference { regs := [(3, 1), (3, 2)] } := by decide
theorem test_asm_refuses_x : (Asm.add 16 0).wellFormed = false ∧ (Asm.add 16 0).assemble = none := by decide
theorem test_asm_refuses_y : (Asm.add 0 16).wellFormed = false ∧ (Asm.add 0 16).assemble = none := by decide
theorem test_asm_refuses_target : (Asm.call 0x1000).wellFormed = false ∧ (Asm.call 0x1000).assemble = none := by
  decide
theorem test_asmLine_refuses :
    (AsmLine.word 0x10000).wellFormed = false ∧ (AsmLine.instr (.add 16 0)).wellFormed = false ∧
    assemble [.word 0x10000] = none ∧ assemble [.instr (.call 0x1000)] = none := by decide

/-! ### Encodings, written out bit by bit (R61, R62, R66; D-1 to D-8, S-1 to S-16) -/

theorem test_decode_halt : decode 0b0000_0000_0000_0000#16 = .ok .halt := by decide
theorem test_decode_ret : decode 0b0000_0000_1110_1110#16 = .ok .ret := by decide
theorem test_decode_add : decode 0b1000_1111_1110_0100#16 = .ok (.add 15 14) := by decide
theorem test_decode_call : decode 0b0010_0001_0000_0000#16 = .ok (.call 0x100) := by decide
theorem test_decode_not_halt : decode 0x0001#16 = .error (.unimplementedOpcode 0x0001) := by decide
theorem test_decode_not_ret : decode 0x00EF#16 = .error (.unimplementedOpcode 0x00EF) := by decide
theorem test_decode_not_add : decode 0x8005#16 = .error (.unimplementedOpcode 0x8005) := by decide
theorem test_decode_major9 : decode 0x9004#16 = .error (.unimplementedOpcode 0x9004) := by decide
theorem test_decode_jump : decode 0x1FFF#16 = .error (.unimplementedOpcode 0x1FFF) := by decide
theorem test_decode_short : decodeBytes [0x21] = .error (.truncated 1) := by decide
theorem test_decode_bytes : decodeBytes [0x80, 0x14, 0x12] = .ok (.add 0 1, [0x12]) := by decide
theorem test_fields_8FE4 : decodeFields 0x8FE4 =
    { major := 0x8, x := 0xF, y := 0xE, minor := 0x4, addr := 0xFE4 } := by decide
theorem test_encode : encode .halt = 0x0000 ∧ encode .ret = 0x00EE ∧ encode (.add 8 9) = 0x8894 ∧
    encode (.call 0xABC) = 0x2ABC := by decide
theorem test_tableWord : decodeTableWord 16 0x8014 = some (.add 0 1) ∧
    decodeTableWord 16 0x00E0 = none ∧ decodeTableWord 32 0x8014 = none := by decide

/-- P6, its bytes 0x100..0x104, shortened to start at 0: an odd target, big-endian words (R74). -/
theorem test_assemble :
    assemble [.instr (.call 0x005), .org 5, .instr (.add 1 1), .instr .ret] =
      some [0x20, 0x05, 0x00, 0x00, 0x00, 0x81, 0x14, 0x00, 0xEE] := by decide
theorem test_asm_text : (Instr.add 0 15).text = "ADD V0, VF" ∧ (Instr.call 0x1F).text = "CALL 0x01F" := by
  decide

/-! ### One step (at most two tests per instruction) -/

/-- F-2: the last address with room for an opcode halts. -/
theorem test_halt_at_top : after (step (small [] 0xFFE)) (fun t => (t.status, t.pc, t.stop)) =
    some (.halted, 0x1000, { reason := .none, opcode := some 0, stopPc := some 0xFFE }) := by decide
/-- H-2, with its stack: HALT leaves the call stack. -/
theorem test_halt_keeps_stack : after (step (small [] 0x200 [0x002, 0x012, 0x022]))
    (fun t => (t.status, t.pc, t.sp, liveStack t)) =
      some (.halted, 0x202, 3, [0x002, 0x012, 0x022]) := by decide
/-- A-5. -/
theorem test_add_wraps : after (step (small [0x80, 0x14] 0 [] 200 100))
    (fun t => (readReg t 0, readReg t 1, t.pc, t.status)) = some (44, 100, 2, .running) := by decide
/-- A-9: VE = 0xFF, VF = 0x01, no carry written. -/
theorem test_add_no_carry :
    after (step (writeReg 14 0xFF (writeReg 15 1 (small [0x8E, 0xF4] 0))))
      (fun t => (readReg t 14, readReg t 15)) = some (0, 1) := by decide
/-- C-6: an odd pc fetches, and pushes an odd return address. -/
theorem test_call_odd_pc : after (step (small [0x00, 0x21, 0x00] 1))
    (fun t => (t.pc, t.sp, liveStack t)) = some (0x100, 1, [0x003]) := by decide
/-- C-3, at address 0: StackOverflow, nothing pushed, the pc restored. -/
theorem test_call_overflow : after (step (small [0x20, 0x00] 0 full))
    (fun t => (t.status, t.stop, t.pc, t.sp, liveStack t)) =
      some (.faulted, { reason := .stackOverflow, opcode := some 0x2000, stopPc := some 0 }, 0, 16, full) := by
  decide
/-- T-3: LIFO; and the popped slot keeps its value (R37). -/
theorem test_ret_lifo : after (step (small [0x00, 0xEE] 0 [0x002, 0x012]))
    (fun t => (t.pc, t.sp, t.stack[1]?)) = some (0x012, 1, some 0x012) := by decide
/-- T-2. -/
theorem test_ret_underflow : after (step (small [0x00, 0xEE] 0)) (fun t => (t.status, t.stop, t.pc)) =
    some (.faulted, { reason := .stackUnderflow, opcode := some 0x00EE, stopPc := some 0 }, 0) := by decide

/-! ### The fetch, terminal states, reset and the host -/

/-- U-1. -/
theorem test_unimplemented : after (step (small [0x12, 0x34] 0 [] 7))
    (fun t => (t.status, t.stop, t.pc, readReg t 0)) =
      some (.faulted, { reason := .unimplementedOpcode, opcode := some 0x1234, stopPc := some 0 }, 0, 7) := by
  decide
/-- F-5: no wrap of pc + 1. -/
theorem test_fetch_top_of_pc : after (step (small [0x80] 0xFFFF)) (fun t => (t.status, t.stop)) =
    some (.faulted, { reason := .outOfBounds, opcode := none, stopPc := some 0xFFFF }) := by decide
/-- F-8: MEM_SIZE = 0x800. -/
theorem test_fetch_small_memory :
    after (step { small [] 0x7FF with cfg := { memSize := 0x800, stackDepth := 16 } })
      (fun t => t.stop.reason) = some .outOfBounds := by decide
/-- C-7: STACK_DEPTH = 1. -/
theorem test_call_depth_one :
    after (step { small [0x21, 0x00] 0 [2] with cfg := { memSize := 4096, stackDepth := 1 }, stack := [2] })
      (fun t => t.stop.reason) = some .stackOverflow := by decide
/-- H-3. -/
theorem test_halted_absorbs : after (step { small [0x80, 0x14] 0 with status := .halted }) (fun t => t.pc) =
    some 0 := by decide
/-- R38 with nothing supplied. -/
theorem test_reset_is_construction : construct Config.reference {} = .ok State.reset := by decide
theorem test_fetchWord_placed : fetchWord (State.reset.withFetchWord 16 0x8014) = some 0x8014 ∧
    after (step (State.reset.withFetchWord 16 0x2100)) (fun t => t.pc) = some 0x100 := by decide
/-- P1, W7: the run request and its Outcome. -/
theorem test_run_P1 : after (run (small [0x80, 0x14] 0 [] 5 10))
    (fun t => (outcomeOf t, (observe t).regs.get 0, t.pc)) = some (some .halted, 15, 4) := by decide
theorem test_codes : [Status.running, .halted, .faulted].map Status.code = [0, 1, 2] ∧
    [Reason.none, .unimplementedOpcode, .outOfBounds, .stackOverflow, .stackUnderflow,
      .arithmeticOverflow].map Reason.code = [0, 1, 2, 3, 4, 5] := by decide

/-! ### Witnesses: the hypotheses of each statement can be met -/

theorem witness_EncodeOfDecodeIsIdentity : decode 0x8FF4#16 = .ok (.add 15 15) := by decide
theorem witness_AssemblerEncodesOperandsInRange :
    (15 ≤ 15 ∧ 15 ≤ 15) ∧ 15 < 16 ∧ 0xFFF ≤ 0xFFF ∧ 0xFFF < 0x1000 := by decide
theorem witness_FetchIsBigEndian :
    (small [] 0xFFE).memRead 0xFFE = some 0 ∧ (small [] 0xFFE).memRead 0xFFF = some 0 ∧
    (small [] 0xFFF).memRead 0x1000 = none := by decide
theorem witness_FetchBoundCheck :
    (small [] 0xFFF).cfg.WellFormed ∧ (small [] 0xFFF).status = .running ∧
    (small [] 0xFFF).cfg.memSize - 2 < (small [] 0xFFF).pc.toNat := by decide
theorem witness_StepRunsDecodedInstruction :
    let s := small [0x20, 0x06] 0
    s.status = .running ∧ s.memRead s.pc.toNat = some 0x20 ∧ s.memRead (s.pc.toNat + 1) = some 0x06 ∧
    decodeBytes [0x20, 0x06] = .ok (.call 6, []) := by decide
/-- One state for each end of a step: ADD goes on, HALT halts at the top of memory, and each of the
four faults. -/
theorem witness_EveryStepCompletesOrEndsRun :
    ∀ s ∈ [small [0x80, 0x14] 0 full, small [] 0xFFE, small [] 0xFFF, small [0x12, 0x34] 0,
      small [0x2F, 0xFF] 0 full, small [0x00, 0xEE] 0], s.WellFormed ∧ s.status = .running := by decide
theorem witness_EveryStepCompletesOrEndsRun_ends :
    [small [0x80, 0x14] 0 full, small [] 0xFFE, small [] 0xFFF, small [0x12, 0x34] 0,
      small [0x2F, 0xFF] 0 full, small [0x00, 0xEE] 0].map (fun s => after (step s) State.status) =
      [some .running, some .halted, some .faulted, some .faulted, some .faulted, some .faulted] := by decide
theorem witness_PcAdvanceNeverWraps :
    (small [] 0xFFE).cfg.WellFormed ∧ fetchWord (small [] 0xFFE) = some 0 := by decide

/-- The premises of NextPcTable, one state for each row of the table. -/
theorem witness_NextPcTable_outOfBounds : (small [] 0xFFF).WellFormed ∧ fetchWord (small [] 0xFFF) = none ∧
    ∃ t, step (small [] 0xFFF) = .next t ∧ t.pc = 0xFFF := ⟨by decide, by decide, next_of_after (by decide)⟩
theorem witness_NextPcTable_halt : (small [] 0xFFE).WellFormed ∧ fetchWord (small [] 0xFFE) = some 0x0000 ∧
    ∃ t, step (small [] 0xFFE) = .next t ∧ t.pc = 0x1000 := ⟨by decide, by decide, next_of_after (by decide)⟩
theorem witness_NextPcTable_add : (small [0x80, 0x14] 0).WellFormed ∧
    fetchWord (small [0x80, 0x14] 0) = some 0x8014 ∧
    ∃ t, step (small [0x80, 0x14] 0) = .next t ∧ t.pc = 2 := ⟨by decide, by decide, next_of_after (by decide)⟩
theorem witness_NextPcTable_call :
    let s := small [0x2F, 0xFF] 0 (List.replicate 15 2)
    s.WellFormed ∧ fetchWord s = some 0x2FFF ∧ s.sp < s.cfg.stackDepth ∧
    ∃ t, step s = .next t ∧ t.pc = 0xFFF := ⟨by decide, by decide, by decide, next_of_after (by decide)⟩
theorem witness_NextPcTable_overflow :
    let s := small [0x20, 0x00] 0 full
    s.WellFormed ∧ fetchWord s = some 0x2000 ∧ s.sp = s.cfg.stackDepth ∧
    ∃ t, step s = .next t ∧ t.pc = 0 := ⟨by decide, by decide, by decide, next_of_after (by decide)⟩
theorem witness_NextPcTable_ret :
    let s := small [0x00, 0xEE] 0 [0x1000]
    s.WellFormed ∧ fetchWord s = some 0x00EE ∧ 0 < s.sp ∧
    ∃ t, step s = .next t ∧ t.pc = 0x1000 := ⟨by decide, by decide, by decide, next_of_after (by decide)⟩
theorem witness_NextPcTable_underflow :
    let s := small [0x00, 0xEE] 0
    s.WellFormed ∧ fetchWord s = some 0x00EE ∧ s.sp = 0 ∧
    ∃ t, step s = .next t ∧ t.pc = 0 := ⟨by decide, by decide, by decide, next_of_after (by decide)⟩
theorem witness_NextPcTable_unimplemented :
    let s := small [0x12, 0x34] 0
    s.WellFormed ∧ fetchWord s = some 0x1234 ∧ decode 0x1234 = .error (.unimplementedOpcode 0x1234) ∧
    ∃ t, step s = .next t ∧ t.pc = 0 := ⟨by decide, by decide, by decide, next_of_after (by decide)⟩

theorem witness_HaltResult : (small [] 0xFFE).cfg.WellFormed ∧ fetchWord (small [] 0xFFE) = some 0x0000 := by
  decide
theorem witness_HaltIsTheOnlySuccess : (small [] 0).status = .running ∧
    ∃ t, step (small [] 0) = .next t ∧ t.status = .halted := ⟨by decide, next_of_after (by decide)⟩
theorem witness_AluSumIsModulo256 : (0 : RegIndex) ≠ 1 ∧
    ∃ t, exec (.add 0 1) (small [] 0 [] 255 1) = .next t ∧ readReg t 0 = 0 :=
  ⟨by decide, next_of_after (by decide)⟩
/-- CALL on the last free slot; on a full stack. -/
theorem witness_CallResult :
    let s := small [] 0 (List.replicate 15 2)
    (s.sp < s.cfg.stackDepth ∧ s.stack.length = s.cfg.stackDepth) ∧
    (small [] 0 full).sp = (small [] 0 full).cfg.stackDepth := by decide
/-- RET from the first slot, from the last, and on an empty stack. -/
theorem witness_RetResult :
    (0 < (small [] 0 [7]).sp ∧ (small [] 0 [7]).stack[(small [] 0 [7]).sp - 1]? = some 7) ∧
    (0 < (small [] 0 full).sp ∧ (small [] 0 full).stack[(small [] 0 full).sp - 1]? = some 2) ∧
    (small [] 0).sp = 0 := by decide
/-- The three instructions that touch no register, each with a next state. -/
theorem witness_OnlyAddTouchesRegisters :
    (∃ t, exec .halt (small [] 0) = .next t ∧ t.pc = 2) ∧
    (∃ t, exec .ret (small [] 0 [7]) = .next t ∧ t.pc = 7) ∧
    (∃ t, exec (.call 9) (small [] 0) = .next t ∧ t.pc = 9) :=
  ⟨next_of_after (by decide), next_of_after (by decide), next_of_after (by decide)⟩
/-- Two states alike in V0 and V1 and unlike in V2, both of which ADD runs in. -/
theorem witness_OnlyAddTouchesRegisters_add :
    let s := small [] 0 [] 3 4
    let s' := writeReg 2 9 s
    readReg s 0 = readReg s' 0 ∧ readReg s 1 = readReg s' 1 ∧ readReg s 2 ≠ readReg s' 2 ∧
    (∃ t, exec (.add 0 1) s = .next t ∧ readReg t 0 = 7) ∧
    ∃ t, exec (.add 0 1) s' = .next t ∧ readReg t 0 = 7 :=
  ⟨by decide, by decide, by decide, next_of_after (by decide), next_of_after (by decide)⟩
theorem witness_PushWritesTheFreeSlot :
    let s := small [] 0 (List.replicate 15 2)
    (s.WellFormed ∧ s.sp < s.cfg.stackDepth) ∧
    (small [] 0 full).WellFormed ∧ stackFull (small [] 0 full) = true := by decide
theorem witness_OnlyLiveSlotsAreRead_pop :
    ((small [] 0 [7]).WellFormed ∧ 0 < (small [] 0 [7]).sp) ∧
    (small [] 0).WellFormed ∧ stackEmpty (small [] 0) = true := by decide
/-- Two machines that differ in slot 1, with one live slot. -/
theorem witness_OnlyLiveSlotsAreRead :
    let s := small [0x00, 0xEE] 0 [7]
    let s' := { s with stack := s.stack.set 1 9 }
    s.WellFormed ∧ s'.WellFormed ∧ s.stack ≠ s'.stack ∧ SameButDeadSlots s s' ∧
    ∃ t, step s = .next t ∧ t.pc = 7 := by
  refine ⟨by decide, by decide, by decide, ⟨by decide, by decide, by decide⟩, next_of_after (by decide)⟩
theorem witness_StackFaultsAreOutcomes :
    (small [] 0 full).sp = (small [] 0 full).cfg.stackDepth ∧ (small [] 0).sp = 0 := by decide
theorem witness_CallTargetIsNotChecked :
    let s := small [] 0
    s.WellFormed ∧ s.status = .running ∧ s.sp < s.cfg.stackDepth ∧
    s.cfg.memSize - 2 < (0xFFF : Target).toNat := by decide
theorem witness_NestedCallsUpToDepth :
    (small [] 0).WellFormed ∧ (small [] 0).sp = 0 ∧
    (List.replicate 16 (0x100 : Target)).length = (small [] 0).cfg.stackDepth := by decide
/-- A CALL to an ADD, one step in the subroutine, still at its depth. -/
theorem witness_CallReturnRoundTrip :
    let s := small [0x20, 0x04, 0x00, 0x00, 0x80, 0x14] 0
    s.WellFormed ∧ s.sp < s.cfg.stackDepth ∧
    ∃ t u, exec (.call 4) s = .next t ∧
      (∀ (k : Nat) (v : State), k ≤ 1 → core.run k t = .next v → t.sp ≤ v.sp) ∧
      core.run 1 t = .next u ∧ u.sp = t.sp := by
  refine ⟨by decide, by decide, ?_⟩
  obtain ⟨t, ht, htu⟩ := next_of_after (o := exec (.call 4) (small [0x20, 0x04, 0x00, 0x00, 0x80, 0x14] 0))
    (f := fun t => (t.sp, after (step t) (fun u => u.sp))) (v := (1, some 1)) (by decide)
  obtain ⟨hsp, hu⟩ := Prod.mk.inj htu
  obtain ⟨u, hu, husp⟩ := next_of_after hu
  refine ⟨t, u, ht, fun k v hk hv => ?_, core_run_succ.mpr ⟨u, hu, core_run_zero.mpr rfl⟩, by omega⟩
  match k, hk with
  | 0, _ => rw [core_run_zero.mp hv]
  | 1, _ =>
    obtain ⟨w, hw, hv⟩ := core_run_succ.mp hv
    rw [hu] at hw
    cases hw
    rw [← core_run_zero.mp hv]
    omega
theorem witness_UnimplementedWordFaults :
    let s := small [0xFF, 0xFF] 0
    s.status = .running ∧ fetchWord s = some 0xFFFF ∧ selectOp 0xFFFF = .unimpl := by decide
theorem witness_FaultsArePrecise : (small [0x12, 0x34] 0).status = .running ∧
    ∃ t, step (small [0x12, 0x34] 0) = .next t ∧ t.status = .faulted :=
  ⟨by decide, next_of_after (by decide)⟩
/-- The four causes: pc = MEM_SIZE - 1, the first pc that fails; the word next to HALT; a full stack; an
empty one. Each state is well-formed and Running and has a next state. -/
theorem witness_FaultCauses :
    ((small [] 0xFFF).WellFormed ∧ ∃ t, step (small [] 0xFFF) = .next t ∧ t.stop.reason = .outOfBounds) ∧
    ((small [0x00, 0x01] 0).WellFormed ∧
      ∃ t, step (small [0x00, 0x01] 0) = .next t ∧ t.stop.reason = .unimplementedOpcode) ∧
    ((small [0x2F, 0xFF] 0 full).WellFormed ∧
      ∃ t, step (small [0x2F, 0xFF] 0 full) = .next t ∧ t.stop.reason = .stackOverflow) ∧
    ((small [0x00, 0xEE] 0).WellFormed ∧
      ∃ t, step (small [0x00, 0xEE] 0) = .next t ∧ t.stop.reason = .stackUnderflow) :=
  ⟨⟨by decide, next_of_after (by decide)⟩, ⟨by decide, next_of_after (by decide)⟩,
    ⟨by decide, next_of_after (by decide)⟩, ⟨by decide, next_of_after (by decide)⟩⟩
theorem witness_ArithmeticOverflowNeverRaised : (small [0x80, 0x14] 0 [] 255 255).stop.reason ≠ .arithmeticOverflow ∧
    ∃ t, step (small [0x80, 0x14] 0 [] 255 255) = .next t ∧ readReg t 0 = 254 :=
  ⟨by decide, next_of_after (by decide)⟩
theorem witness_TerminalStatesAbsorb :
    ({ small [] 0 with status := .halted } : State).status = .halted ∧
    ({ small [] 0 with status := .faulted } : State).status = .faulted := by decide
/-- One step of a run, for the statements about `core.run`, `exec` and `step`. -/
theorem witness_MemoryIsNeverWritten :
    (∃ t, exec (.call 4) (small [0x20, 0x04] 0) = .next t ∧ t.sp = 1) ∧
    ∃ t, core.run 1 (small [0x20, 0x04] 0) = .next t ∧ t.sp = 1 := by
  refine ⟨next_of_after (by decide), ?_⟩
  obtain ⟨t, ht, hsp⟩ := next_of_after (o := step (small [0x20, 0x04] 0)) (f := State.sp) (v := 1) (by decide)
  exact ⟨t, core_run_succ.mpr ⟨t, ht, core_run_zero.mpr rfl⟩, hsp⟩
theorem witness_ParametersAreFixed : ∃ t, step (small [0x00, 0xEE] 0 [7]) = .next t ∧ t.sp = 0 :=
  next_of_after (by decide)
theorem witness_RegistersNeverSteerControl : ∃ t, core.run 1 (small [0x80, 0x14] 0 [] 1 2) = .next t ∧
    readReg t 0 = 3 := by
  obtain ⟨t, ht, h⟩ := next_of_after (o := step (small [0x80, 0x14] 0 [] 1 2)) (f := fun t => readReg t 0)
    (v := 3) (by decide)
  exact ⟨t, core_run_succ.mpr ⟨t, ht, core_run_zero.mpr rfl⟩, h⟩
/-- A state of the invariant with two live slots, and its next state. -/
theorem witness_StepKeepsInv : Inv (small [0x00, 0xEE] 0 [2, 0x1000]) ∧
    ∃ t, step (small [0x00, 0xEE] 0 [2, 0x1000]) = .next t ∧ t.pc = 0x1000 :=
  ⟨by decide, next_of_after (by decide)⟩
theorem witness_CanonicalMemoriesAgree : Memory.wf [(0, 0x80), (0xFFF, 0x14)] ∧
    ∀ a, Memory.read [(0, 0x80), (0xFFF, 0x14)] a = Memory.read (Memory.write [(0xFFF, 0x14)] 0 0x80) a :=
  ⟨by decide, fun a => rfl⟩
/-- A run that ends Halted and one that ends Faulted, each with the Outcome R93 gives it (P1; W4). -/
theorem witness_RunAlwaysEnds : Inv (small [0x80, 0x14] 0) ∧ Inv (small [0x00, 0xEE] 0) := by decide
theorem witness_RunAlwaysEnds_outcomes :
    after (run (small [0x80, 0x14] 0)) outcomeOf = some (some .halted) ∧
    after (run (small [0x00, 0xEE] 0)) outcomeOf = some (some (.faulted .stackUnderflow (some 0x00EE) 0)) := by
  decide
/-- A single step that ends the run, and one that does not. -/
theorem witness_SingleStepsAgreeWithRun :
    (Inv (small [] 0) ∧ ∃ t, core.run 1 (small [] 0) = .next t ∧ t.status ≠ .running) ∧
    (Inv (small [0x80, 0x14] 0) ∧ ∃ t, core.run 1 (small [0x80, 0x14] 0) = .next t ∧ t.status = .running) := by
  refine ⟨⟨by decide, ?_⟩, by decide +kernel, ?_⟩
  · obtain ⟨t, ht, h⟩ := next_of_after (o := step (small [] 0)) (f := State.status) (v := .halted) (by decide)
    exact ⟨t, core_run_succ.mpr ⟨t, ht, core_run_zero.mpr rfl⟩, by simp [h]⟩
  · obtain ⟨t, ht, h⟩ := next_of_after (o := step (small [0x80, 0x14] 0)) (f := State.status)
      (v := .running) (by decide)
    exact ⟨t, core_run_succ.mpr ⟨t, ht, core_run_zero.mpr rfl⟩, h⟩
/-- A construction with the first and the last register supplied at the largest value, and V1 not. -/
theorem witness_RegistersHoldSuppliedOrZero :
    (∃ s, construct Config.reference { regs := [(0, 255), (15, 255)] } = .ok s) ∧
    ((15 : RegIndex).toNat, 255) ∈ [(0, 255), (15, 255)] ∧
    ∀ v, ((1 : RegIndex).toNat, v) ∉ [(0, 255), (15, 255)] := by
  refine ⟨⟨_, rfl⟩, by decide, fun v => by simp⟩
theorem witness_ConstructionAcceptsInputInRange :
    (∃ s, construct { memSize := 2, stackDepth := 1 } { regs := [(15, 255)], image := [0, 0xEE], pc := 0xFFFF } = .ok s) :=
  ⟨_, rfl⟩
theorem witness_ConstructedState :
    (∃ s, construct { memSize := 0xFFFF, stackDepth := 1 } { image := [0x80, 0x14], pc := 0xFFFF } = .ok s) ∧
    0 < 1 ∧ 0xFFFE < 0xFFFF ∧ 0xFFFF ≤ 0xFFFF := ⟨⟨_, rfl⟩, by decide⟩
theorem witness_RunKeepsConstructionImage :
    ∃ s t, construct Config.reference { image := [0x80, 0x14] } = .ok s ∧ core.run 0 s = .next t ∧
      0xFFF < Config.reference.memSize :=
  ⟨_, _, rfl, core_run_zero.mpr rfl, by decide⟩
/-- Past a two-byte image, at the first and at the last pc with room for an opcode. -/
theorem witness_ZeroFilledMemoryHalts :
    (∃ s t, construct Config.reference { image := [0x80, 0x14], pc := 2 } = .ok s ∧
      core.run 0 s = .next t ∧ t.status = .running ∧ t.pc = 2) ∧
    (∃ s t, construct Config.reference { image := [0x80, 0x14], pc := 0xFFE } = .ok s ∧
      core.run 0 s = .next t ∧ t.status = .running ∧ t.pc.toNat = Config.reference.memSize - 2) :=
  ⟨⟨_, _, rfl, core_run_zero.mpr rfl, rfl, rfl⟩, ⟨_, _, rfl, core_run_zero.mpr rfl, rfl, rfl⟩⟩

end Sys2Proof.Tests
end

/-! PROOFS. The register file (10_state.md section 2): what construction puts in it (R23), and that ADD
alone touches it afterwards (R22). The equations of CALL and RET and the inversion of construction
stand first. -/

namespace Sys2Proof.Machine

variable {s t : State}

/-! ### Construction (R170) -/

/-- All that an accepted construction says: the input is in range and the state is the one set up. -/
theorem construct_eq_ok {cfg : Config} {c : Construction} :
    construct cfg c = .ok s ↔ cfg.WellFormed ∧ c.WellFormed cfg ∧ s = constructed cfg c := by
  constructor
  · intro h
    unfold construct at h
    split_ifs at h with hcfg himage hindex hvalue hpc hnodup
    cases h
    exact ⟨hcfg, ⟨himage, hindex, hvalue, hpc, hnodup⟩, rfl⟩
  · rintro ⟨hcfg, ⟨himage, hindex, hvalue, hpc, hnodup⟩, rfl⟩
    rw [construct, if_neg (not_not.mpr hcfg), if_neg (not_not.mpr himage),
      if_neg (not_not.mpr hindex), if_neg (not_not.mpr hvalue), if_neg (not_not.mpr hpc),
      if_neg (not_not.mpr hnodup)]

/-- In a list that gives no key twice, looking up a key finds the value listed for it. -/
theorem lookup_eq_some_of_mem {l : List (Nat × Nat)} {k v : Nat}
    (hnodup : (l.map Prod.fst).Nodup) (hmem : (k, v) ∈ l) : l.lookup k = some v := by
  obtain ⟨before, after, rfl⟩ := List.append_of_mem hmem
  refine List.lookup_eq_some_iff.mpr ⟨before, after, rfl, fun p hp => ?_⟩
  rw [List.map_append] at hnodup
  have hne : p.1 ≠ k := (List.nodup_append.mp hnodup).2.2 p.1 (List.mem_map_of_mem hp) k (by simp)
  simpa using hne.symm

/-- A register the input lists is supplied with the listed value. -/
theorem suppliedReg_of_mem {c : Construction} {i v : Nat} (hnodup : (c.regs.map Prod.fst).Nodup)
    (hmem : (i, v) ∈ c.regs) : suppliedReg c i = v := by
  rw [suppliedReg, lookup_eq_some_of_mem hnodup hmem, Option.getD_some]

/-- A register the input does not list is supplied with 0. -/
theorem suppliedReg_of_not_mem {c : Construction} {i : Nat} (h : ∀ v, (i, v) ∉ c.regs) :
    suppliedReg c i = 0 := by
  have hnone : c.regs.lookup i = none :=
    List.lookup_eq_none_iff.mpr fun p hp => by
      have hne : i ≠ p.1 := fun e => h p.2 (e ▸ hp)
      simpa using hne
  rw [suppliedReg, hnone, Option.getD_none]

/-- A register of a constructed state reads as what was supplied for it. -/
@[simp] theorem readReg_constructed (cfg : Config) (c : Construction) (i : RegIndex) :
    readReg (constructed cfg c) i = BitVec.ofNat 8 (suppliedReg c i.toNat) := by
  simp [readReg_eq_getElem, constructed]

/-- Settles O41: the index is listed once or not at all, and a listed value is a byte. -/
theorem registersHoldSuppliedOrZero : Obligations.RegistersHoldSuppliedOrZero := by
  intro cfg c s h i
  obtain ⟨-, ⟨-, -, hvalue, -, hnodup⟩, rfl⟩ := construct_eq_ok.mp h
  rw [readReg_constructed]
  constructor
  · intro v hmem
    have hbyte : v ≤ 255 := hvalue _ hmem
    rw [suppliedReg_of_mem hnodup hmem, BitVec.toNat_ofNat]
    omega
  · intro hnot
    rw [suppliedReg_of_not_mem hnot, BitVec.ofNat_eq_ofNat]

/-! ### CALL and RET, one equation for each way they end in a next state (R120, R121, R125, R126) -/

theorem exec_call_full (a : Target) (h : s.sp = s.cfg.stackDepth) :
    exec (.call a) s =
      .next (faultState .stackOverflow (some (encode (.call a))) s.pc s) := by
  simp [exec, execCall, stackFull, h, raiseFault]

theorem exec_call_push (a : Target) (hdepth : s.sp < s.cfg.stackDepth)
    (hslot : s.sp < s.stack.length) :
    exec (.call a) s = .next { s with
      pc := callTarget a, stack := s.stack.set s.sp (s.pc + 2#16), sp := s.sp + 1 } := by
  have hfull : stackFull s = false := by simp [stackFull, hdepth.ne]
  simp only [exec, execCall, stackFull_advancePc, hfull]
  rw [(push_eq_some (s := advancePc s)).mpr ⟨hdepth, hslot, rfl⟩]
  rfl

theorem exec_ret_empty (h : s.sp = 0) :
    exec .ret s = .next (faultState .stackUnderflow (some (encode .ret)) s.pc s) := by
  simp [exec, execRet, stackEmpty, h, raiseFault]

theorem exec_ret_pop {v : Word} (hsp : 0 < s.sp) (hv : s.stack[s.sp - 1]? = some v) :
    exec .ret s = .next { s with pc := v, sp := s.sp - 1 } := by
  have hempty : stackEmpty s = false := by simp [stackEmpty, hsp.ne']
  simp only [exec, execRet, stackEmpty_advancePc, hempty]
  rw [(pop_eq_some (s := advancePc s)).mpr ⟨hsp, hv, rfl⟩]
  rfl

/-! ### HALT, CALL and RET do not touch the register file (R22) -/

/-- Every instruction but ADD leaves the register file. -/
theorem exec_keeps_regs {i : Instr} (hadd : ∀ x y, i ≠ .add x y) (h : exec i s = .next t) :
    t.regs = s.regs := by
  cases i with
  | halt => rw [exec_halt_eq] at h; cases h; rfl
  | ret => obtain ⟨-, rfl⟩ | ⟨-, v, -, rfl⟩ := exec_ret_next h <;> rfl
  | add x y => exact absurd rfl (hadd x y)
  | call a => obtain ⟨-, rfl⟩ | ⟨-, -, rfl⟩ := exec_call_next h <;> rfl

/-- Every instruction but ADD does, with another register file, the same to the rest of the state. -/
theorem exec_withRegs {i : Instr} (r : Vector Byte numRegs) (hadd : ∀ x y, i ≠ .add x y)
    (h : exec i s = .next t) : exec i (s.withRegs r) = .next (t.withRegs r) := by
  cases i with
  | halt => rw [exec_halt_eq] at h; cases h; rfl
  | ret =>
    obtain ⟨hsp, rfl⟩ | ⟨hsp, v, hv, rfl⟩ := exec_ret_next h
    · exact exec_ret_empty (s := s.withRegs r) hsp
    · exact exec_ret_pop (s := s.withRegs r) hsp hv
  | add x y => exact absurd rfl (hadd x y)
  | call a =>
    obtain ⟨hsp, rfl⟩ | ⟨hsp, hslot, rfl⟩ := exec_call_next h
    · exact exec_call_full (s := s.withRegs r) a hsp
    · exact exec_call_push (s := s.withRegs r) a hsp hslot

/-! ### ADD touches its two operands (R22, R110) -/

/-- ADD leaves in `V[x]` the ALU's sum of the operands it found. -/
theorem exec_add_readReg_same {x y : RegIndex} (h : exec (.add x y) s = .next t) :
    readReg t x = aluSum (readReg s x) (readReg s y) := by
  rw [exec_add_eq] at h
  cases h
  exact readReg_writeReg_same _ x _

/-- ADD leaves every register but `V[x]`. -/
theorem exec_add_readReg_ne {x y z : RegIndex} (hz : z ≠ x) (h : exec (.add x y) s = .next t) :
    readReg t z = readReg s z := by
  rw [exec_add_eq] at h
  cases h
  exact (readReg_writeReg_ne _ x z _ hz).trans (readReg_advancePc s z)

/-- Settles O21: every instruction but ADD keeps the register file and ignores it; ADD's result is a
function of its two operands. -/
theorem onlyAddTouchesRegisters : Obligations.OnlyAddTouchesRegisters := by
  constructor
  · intro i s t r hi h
    have hadd : ∀ x y, i ≠ .add x y := by
      rintro x y rfl
      simp at hi
    exact ⟨exec_keeps_regs hadd h, exec_withRegs r hadd h⟩
  · intro x y s s' t t' hx hy h h'
    constructor
    · rw [exec_add_readReg_same h, exec_add_readReg_same h', hx, hy]
    · exact fun z hz => exec_add_readReg_ne hz h

end Sys2Proof.Machine

/-! PROOFS. Memory (20_memory.md): the fetch is two byte reads, high byte first, behind one bound check
(R42, R43), and no step writes memory (R45). -/

namespace Sys2Proof.Machine

variable {s t : State}

/-! ### Byte reads (R12) -/

theorem memRead_eq_some {a : Nat} {b : Byte} :
    s.memRead a = some b ↔ a < s.cfg.memSize ∧ Memory.read s.mem a = b := by
  simp [State.memRead]

theorem memRead_eq_none {a : Nat} : s.memRead a = none ↔ s.cfg.memSize ≤ a := by
  simp [State.memRead]

/-- A read looks at memory and its size only. -/
theorem memRead_congr (hmem : t.mem = s.mem) (hcfg : t.cfg = s.cfg) (a : Nat) :
    t.memRead a = s.memRead a := by
  rw [State.memRead, State.memRead, hmem, hcfg]

/-! ### The fetch (R42, R43) -/

@[simp] theorem wordOfBytes_high (hi lo : Byte) : (wordOfBytes hi lo).extractLsb' 8 8 = hi :=
  BitVec.extractLsb'_append_eq_left

@[simp] theorem wordOfBytes_low (hi lo : Byte) : (wordOfBytes hi lo).extractLsb' 0 8 = lo :=
  BitVec.extractLsb'_append_eq_right

/-- The bound check asks whether there is a byte at `pc + 1`, whatever the size of memory. -/
theorem fetchable_iff_lt : fetchable s = true ↔ s.pc.toNat + 1 < s.cfg.memSize := by
  rw [fetchable_iff]
  omega

theorem fetchWord_isSome : (fetchWord s).isSome ↔ fetchable s = true := by
  simp [fetchWord]

/-- The two bytes at the pc, read one by one, are the fetched word. -/
theorem fetchWord_of_memRead {hi lo : Byte} (hhi : s.memRead s.pc.toNat = some hi)
    (hlo : s.memRead (s.pc.toNat + 1) = some lo) : fetchWord s = some (wordOfBytes hi lo) := by
  obtain ⟨-, rfl⟩ := memRead_eq_some.mp hhi
  obtain ⟨hlt, rfl⟩ := memRead_eq_some.mp hlo
  exact fetchWord_eq_some.mpr ⟨fetchable_iff_lt.mpr hlt, rfl⟩

/-- With no byte at `pc + 1` there is no fetch. -/
theorem fetchWord_of_memRead_none (h : s.memRead (s.pc.toNat + 1) = none) : fetchWord s = none := by
  rw [fetchWord_eq_none, Bool.eq_false_iff, ne_eq, fetchable_iff_lt]
  exact Nat.not_lt.mpr (memRead_eq_none.mp h)

/-- A Running step whose fetch fails is the OutOfBounds fault (R81). -/
theorem step_of_fetchWord_none (hrun : s.status = .running) (hfetch : fetchWord s = none) :
    step s = .next (faultState .outOfBounds none s.pc s) := by
  simp [step, hrun, hfetch, raiseOutOfBounds, raiseFault]

/-- Settles O9: the fetched word is the two bytes, so its halves are them; without the second byte the
bound check fails. -/
theorem fetchIsBigEndian : Obligations.FetchIsBigEndian := by
  intro s
  constructor
  · intro hi lo hhi hlo
    exact ⟨_, fetchWord_of_memRead hhi hlo, wordOfBytes_high hi lo, wordOfBytes_low hi lo⟩
  · exact fetchWord_of_memRead_none

/-- Settles O10: the fetch succeeds when the bound check does, and the two spellings of the bound agree
because memory has two bytes or more (R8). -/
theorem fetchBoundCheck : Obligations.FetchBoundCheck := by
  intro s hcfg
  obtain ⟨hsize, -, -⟩ := hcfg
  refine ⟨fetchWord_isSome.trans fetchable_iff, by omega, fun hrun hpc => ?_⟩
  have hfail : fetchable s = false := by
    rw [Bool.eq_false_iff, ne_eq, fetchable_iff]
    omega
  exact ⟨_, step_of_fetchWord_none hrun (fetchWord_eq_none.mpr hfail), rfl, rfl⟩

/-! ### Nothing writes memory (R45) -/

/-- No instruction changes memory or the parameters. -/
theorem exec_keeps_mem_cfg {i : Instr} (h : exec i s = .next t) : t.mem = s.mem ∧ t.cfg = s.cfg := by
  cases i with
  | halt => rw [exec_halt_eq] at h; cases h; exact ⟨rfl, rfl⟩
  | ret => obtain ⟨-, rfl⟩ | ⟨-, v, -, rfl⟩ := exec_ret_next h <;> exact ⟨rfl, rfl⟩
  | add x y => rw [exec_add_eq] at h; cases h; exact ⟨rfl, rfl⟩
  | call a => obtain ⟨-, rfl⟩ | ⟨-, -, rfl⟩ := exec_call_next h <;> exact ⟨rfl, rfl⟩

/-- Neither does a step, whether it executes, faults or finds the run ended. -/
theorem step_keeps_mem_cfg (h : step s = .next t) : t.mem = s.mem ∧ t.cfg = s.cfg := by
  obtain ⟨-, rfl⟩ | ⟨-, -, rfl⟩ | ⟨-, op, -, -, rfl⟩ | ⟨-, op, i, -, -, hexec⟩ := step_cases h
  · exact ⟨rfl, rfl⟩
  · exact ⟨rfl, rfl⟩
  · exact ⟨rfl, rfl⟩
  · exact exec_keeps_mem_cfg hexec

/-- Nor does a run of any length. -/
theorem core_run_keeps_mem_cfg {n : Nat} (h : core.run n s = .next t) :
    t.mem = s.mem ∧ t.cfg = s.cfg := by
  refine core_run_induction (P := fun u => u.mem = s.mem ∧ u.cfg = s.cfg) ?_ ⟨rfl, rfl⟩ h
  rintro u v ⟨hmem, hcfg⟩ huv
  obtain ⟨hmem', hcfg'⟩ := step_keeps_mem_cfg huv
  exact ⟨hmem'.trans hmem, hcfg'.trans hcfg⟩

/-- Settles O33: memory and its size are kept, and a read looks at nothing else. -/
theorem memoryIsNeverWritten : Obligations.MemoryIsNeverWritten := by
  constructor
  · intro i s t h
    obtain ⟨hmem, hcfg⟩ := exec_keeps_mem_cfg h
    exact memRead_congr hmem hcfg
  · intro n s t h
    obtain ⟨hmem, hcfg⟩ := core_run_keeps_mem_cfg h
    exact ⟨hmem, memRead_congr hmem hcfg⟩

end Sys2Proof.Machine

/-! PROOFS. The decoder and the dispatcher (30_encoding.md), as numbers: the five fields (R63), the match
rules as table rows and as ranges of the word (R66), the opcode map (R68), and the fault of a word that
selects UNIMPL (R70). -/

namespace Sys2Proof

variable {w : Word}

/-! ### The fields (R63) -/

theorem decodeFields_major_toNat (w : Word) : (decodeFields w).major.toNat = w.toNat / 0x1000 := by
  simp only [decodeFields, BitVec.extractLsb'_toNat, Nat.shiftRight_eq_div_pow]
  omega

theorem decodeFields_x_toNat (w : Word) : (decodeFields w).x.toNat = w.toNat / 0x100 % 0x10 := by
  simp only [decodeFields, BitVec.extractLsb'_toNat, Nat.shiftRight_eq_div_pow]

theorem decodeFields_y_toNat (w : Word) : (decodeFields w).y.toNat = w.toNat / 0x10 % 0x10 := by
  simp only [decodeFields, BitVec.extractLsb'_toNat, Nat.shiftRight_eq_div_pow]

theorem decodeFields_minor_toNat (w : Word) : (decodeFields w).minor.toNat = w.toNat % 0x10 := by
  simp only [decodeFields, BitVec.extractLsb'_toNat, Nat.shiftRight_eq_div_pow]
  omega

theorem decodeFields_addr_toNat (w : Word) : (decodeFields w).addr.toNat = w.toNat % 0x1000 := by
  simp only [decodeFields, BitVec.extractLsb'_toNat, Nat.shiftRight_eq_div_pow]
  omega

/-- Settles O5: a field of `len` bits from bit `start` on is a division and a remainder. -/
theorem fieldsOfEveryWord : Obligations.FieldsOfEveryWord := fun w =>
  ⟨decodeFields_major_toNat w, decodeFields_x_toNat w, decodeFields_y_toNat w,
    decodeFields_minor_toNat w, decodeFields_addr_toNat w⟩

/-- The four 4-bit fields are the whole word. -/
theorem eq_iff_decodeFields {v w : Word} :
    v = w ↔ (decodeFields v).major = (decodeFields w).major ∧ (decodeFields v).x = (decodeFields w).x ∧
      (decodeFields v).y = (decodeFields w).y ∧ (decodeFields v).minor = (decodeFields w).minor := by
  simp only [BitVec.toNat_eq, decodeFields_major_toNat, decodeFields_x_toNat, decodeFields_y_toNat,
    decodeFields_minor_toNat]
  omega

/-! ### The rows of the opcode table (R66) -/

/-- A mask acts on each field by itself. -/
theorem decodeFields_and (v w : Word) :
    (decodeFields (v &&& w)).major = (decodeFields v).major &&& (decodeFields w).major ∧
    (decodeFields (v &&& w)).x = (decodeFields v).x &&& (decodeFields w).x ∧
    (decodeFields (v &&& w)).y = (decodeFields v).y &&& (decodeFields w).y ∧
    (decodeFields (v &&& w)).minor = (decodeFields v).minor &&& (decodeFields w).minor :=
  ⟨BitVec.extractLsb'_and, BitVec.extractLsb'_and, BitVec.extractLsb'_and, BitVec.extractLsb'_and⟩

/-- The mask of an exact word keeps every bit. -/
theorem and_exactMask (w : Word) : w &&& 0xFFFF#16 = w := BitVec.and_allOnes

/-- A mask that covers a field keeps it. -/
theorem and_fieldMask (f : BitVec 4) : f &&& 0xF#4 = f := BitVec.and_allOnes

/-- The mask of format R sees `major` and `minor`. -/
theorem and_addMask_eq_iff :
    w &&& 0xF00F#16 = 0x8004#16 ↔ (decodeFields w).major = 0x8#4 ∧ (decodeFields w).minor = 0x4#4 := by
  obtain ⟨hmajor, hx, hy, hminor⟩ := decodeFields_and w 0xF00F#16
  rw [eq_iff_decodeFields, hmajor, hx, hy, hminor]
  simp [decodeFields, and_fieldMask]

/-- The mask of format A sees `major`. -/
theorem and_callMask_eq_iff :
    w &&& 0xF000#16 = 0x2000#16 ↔ (decodeFields w).major = 0x2#4 := by
  obtain ⟨hmajor, hx, hy, hminor⟩ := decodeFields_and w 0xF000#16
  rw [eq_iff_decodeFields, hmajor, hx, hy, hminor]
  simp [decodeFields, and_fieldMask]

/-- The pseudocode of R67 is the table of R66, row by row. -/
theorem selectOp_eq_firstMatch (w : Word) : selectOp w = firstMatch opcodeTable w := by
  simp only [selectOp, dispatch, opcodeTable, firstMatch, OpcodeRow.hits, beq_iff_eq, and_exactMask,
    and_addMask_eq_iff, and_callMask_eq_iff]

/-! ### The match rules as numbers (R66) -/

theorem selectOp_eq_ite_toNat (w : Word) :
    selectOp w =
      if w.toNat = 0x0000 then .halt
      else if w.toNat = 0x00EE then .ret
      else if w.toNat / 0x1000 = 0x8 ∧ w.toNat % 0x10 = 0x4 then .add
      else if 0x2000 ≤ w.toNat ∧ w.toNat ≤ 0x2FFF then .call
      else .unimpl := by
  have hcall : w.toNat / 0x1000 = 2 ↔ 0x2000 ≤ w.toNat ∧ w.toNat ≤ 0x2FFF := by omega
  simp only [selectOp, dispatch, BitVec.toNat_eq, decodeFields_major_toNat, decodeFields_minor_toNat,
    BitVec.toNat_ofNat, Nat.reducePow, Nat.reduceMod, hcall]

/-- Settles O3: the dispatcher is the table row by row, and each row is a condition on the number. -/
theorem dispatchIsFirstMatchingRule : Obligations.DispatchIsFirstMatchingRule := fun w =>
  ⟨selectOp_eq_firstMatch w, selectOp_eq_ite_toNat w⟩

theorem selectOp_eq_halt : selectOp w = .halt ↔ w.toNat = 0x0000 := by
  rw [selectOp_eq_ite_toNat]
  split_ifs <;> simp <;> omega

theorem selectOp_eq_ret : selectOp w = .ret ↔ w.toNat = 0x00EE := by
  rw [selectOp_eq_ite_toNat]
  split_ifs <;> simp <;> omega

theorem selectOp_eq_add : selectOp w = .add ↔ w.toNat / 0x1000 = 0x8 ∧ w.toNat % 0x10 = 0x4 := by
  rw [selectOp_eq_ite_toNat]
  split_ifs <;> simp <;> omega

theorem selectOp_eq_call : selectOp w = .call ↔ 0x2000 ≤ w.toNat ∧ w.toNat ≤ 0x2FFF := by
  rw [selectOp_eq_ite_toNat]
  split_ifs <;> simp <;> omega

/-- The UNIMPL rows of the opcode map (R68): the words no rule takes. -/
theorem selectOp_eq_unimpl :
    selectOp w = .unimpl ↔
      (w.toNat ≤ 0x0FFF ∧ w.toNat ≠ 0x0000 ∧ w.toNat ≠ 0x00EE) ∨
      (0x1000 ≤ w.toNat ∧ w.toNat ≤ 0x1FFF) ∨
      (0x3000 ≤ w.toNat ∧ w.toNat ≤ 0x7FFF) ∨
      (0x8000 ≤ w.toNat ∧ w.toNat ≤ 0x8FFF ∧ w.toNat % 0x10 ≠ 0x4) ∨
      0x9000 ≤ w.toNat := by
  rw [selectOp_eq_ite_toNat]
  split_ifs <;> simp <;> omega

/-! ### The opcode map (R68) -/

theorem decode_eq_halt : decode w = .ok .halt ↔ selectOp w = .halt := by
  cases h : selectOp w <;> simp [decode, h]

theorem decode_eq_ret : decode w = .ok .ret ↔ selectOp w = .ret := by
  cases h : selectOp w <;> simp [decode, h]

theorem decode_eq_add {x y : RegIndex} :
    decode w = .ok (.add x y) ↔
      selectOp w = .add ∧ (decodeFields w).x = x ∧ (decodeFields w).y = y := by
  cases h : selectOp w <;> simp [decode, h]

theorem decode_eq_call {a : Target} :
    decode w = .ok (.call a) ↔ selectOp w = .call ∧ (decodeFields w).addr = a := by
  cases h : selectOp w <;> simp [decode, h]

theorem decode_eq_unimplemented : decode w = .error (.unimplementedOpcode w) ↔ selectOp w = .unimpl :=
  ⟨fun h => (Machine.decode_error h).1, Machine.decode_unimpl⟩

/-- Settles O4: a word decodes to the operation it selects with its fields, and both are numbers. -/
theorem opcodeMapOfEveryWord : Obligations.OpcodeMapOfEveryWord := by
  intro w
  refine ⟨decode_eq_halt.trans selectOp_eq_halt, decode_eq_ret.trans selectOp_eq_ret,
    fun x y => ?_, fun a => ?_, decode_eq_unimplemented.trans selectOp_eq_unimpl⟩
  · rw [decode_eq_add, selectOp_eq_add, BitVec.toNat_eq, BitVec.toNat_eq, decodeFields_x_toNat,
      decodeFields_y_toNat]
    omega
  · rw [decode_eq_call, selectOp_eq_call, BitVec.toNat_eq, decodeFields_addr_toNat]
    omega

end Sys2Proof

namespace Sys2Proof.Machine

variable {s : State} {w : Word}

/-! ### A word that selects UNIMPL (R70) -/

/-- A Running step at such a word is the UnimplementedOpcode fault (R86). -/
theorem step_of_selectOp_unimpl (hrun : s.status = .running) (hfetch : fetchWord s = some w)
    (hsel : selectOp w = .unimpl) :
    step s = .next (faultState .unimplementedOpcode (some w) s.pc s) := by
  simp [step, hrun, hfetch, decode_unimpl hsel, raiseUnimplemented, raiseFault]

/-- Settles O28: the fault state carries the fetched word. -/
theorem unimplementedWordFaults : Obligations.UnimplementedWordFaults := fun _ _ hrun hfetch hsel =>
  ⟨_, step_of_selectOp_unimpl hrun hfetch hsel, rfl, rfl, rfl⟩

end Sys2Proof.Machine

/-! PROOFS. The instruction cycle (40_instruction_cycle.md): a step from a well-formed Running state always
answers a next state (R89), and what it can be (R87, D5). -/

namespace Sys2Proof.Machine

variable {s t : State}

/-- A Running step whose word is an instruction executes it (R83). -/
theorem step_of_decode_ok {w : Word} {i : Instr} (hrun : s.status = .running)
    (hfetch : fetchWord s = some w) (hdecode : decode w = .ok i) : step s = exec i s := by
  simp [step, hrun, hfetch, hdecode]

/-- With a stack of STACK_DEPTH slots and `sp` in its range (R29, R30) every instruction answers a next
state: a stack that is not full has a slot to push to, one that is not empty a slot to pop from. -/
theorem exec_answers (i : Instr) (hlen : s.stack.length = s.cfg.stackDepth)
    (hsp : s.sp ≤ s.cfg.stackDepth) : ∃ t, exec i s = .next t := by
  cases i with
  | halt => exact ⟨_, exec_halt_eq⟩
  | ret =>
    obtain hempty | hpos := Nat.eq_zero_or_pos s.sp
    · exact ⟨_, exec_ret_empty hempty⟩
    · exact ⟨_, exec_ret_pop hpos (List.getElem?_eq_getElem (by omega))⟩
  | add x y => exact ⟨_, exec_add_eq x y⟩
  | call a =>
    obtain hfull | hdepth := Nat.eq_or_lt_of_le hsp
    · exact ⟨_, exec_call_full a hfull⟩
    · exact ⟨_, exec_call_push a hdepth (by omega)⟩

/-- An instruction keeps the run status, or halts, or faults with only pc, status and stop record set,
the pc to the fetch address (R13, D5). -/
theorem exec_status_or_faultState {i : Instr} (h : exec i s = .next t) :
    t.status = s.status ∨ t.status = .halted ∨ ∃ r o, t = faultState r o s.pc s := by
  cases i with
  | halt => rw [exec_halt_eq] at h; cases h; exact .inr (.inl rfl)
  | ret =>
    obtain ⟨-, rfl⟩ | ⟨-, v, -, rfl⟩ := exec_ret_next h
    · exact .inr (.inr ⟨_, _, rfl⟩)
    · exact .inl rfl
  | add x y => rw [exec_add_eq] at h; cases h; exact .inl rfl
  | call a =>
    obtain ⟨-, rfl⟩ | ⟨-, -, rfl⟩ := exec_call_next h
    · exact .inr (.inr ⟨_, _, rfl⟩)
    · exact .inl rfl

/-- What a fault taken at the fetch address leaves as it was (R13, D5). -/
theorem faultState_precise (r : Reason) (o : Option Word) (s : State) :
    (faultState r o s.pc s).status = .faulted ∧ (faultState r o s.pc s).regs = s.regs ∧
      (faultState r o s.pc s).mem = s.mem ∧ (faultState r o s.pc s).stack = s.stack ∧
      (faultState r o s.pc s).sp = s.sp ∧ (faultState r o s.pc s).pc = s.pc ∧
      (faultState r o s.pc s).cfg = s.cfg :=
  ⟨rfl, rfl, rfl, rfl, rfl, rfl, rfl⟩

/-- Settles O12, along the cycle: the fetch fails and faults, or the word selects UNIMPL and faults, or
the instruction executes and ends in one of its three ways. -/
theorem everyStepCompletesOrEndsRun : Obligations.EveryStepCompletesOrEndsRun := by
  intro s hwf hrun
  obtain ⟨-, -, -, hlen, hsp⟩ := hwf
  cases hfetch : fetchWord s with
  | none => exact ⟨_, step_of_fetchWord_none hrun hfetch, .inr (.inr (faultState_precise _ _ s))⟩
  | some w =>
    cases hdecode : decode w with
    | error r =>
      obtain ⟨hsel, -⟩ := decode_error hdecode
      exact ⟨_, step_of_selectOp_unimpl hrun hfetch hsel, .inr (.inr (faultState_precise _ _ s))⟩
    | ok i =>
      obtain ⟨t, hexec⟩ := exec_answers i hlen hsp
      refine ⟨t, (step_of_decode_ok hrun hfetch hdecode).trans hexec, ?_⟩
      obtain hstatus | hhalted | ⟨r, o, rfl⟩ := exec_status_or_faultState hexec
      · exact .inl ⟨hstatus.trans hrun, w, i, rfl, hdecode, hexec⟩
      · exact .inr (.inl hhalted)
      · exact .inr (.inr (faultState_precise r o s))

end Sys2Proof.Machine

/-! PROOFS. HALT (41_halt.md): the word 0x0000 ends a run with success, no other word does, and the run stays
ended (R102). -/

namespace Sys2Proof.Machine

variable {s t : State} {w : Word}

/-- HALT is one exact word (R66, row 1). -/
theorem decode_eq_halt_iff_word : decode w = .ok .halt ↔ w = 0x0000 :=
  (decode_eq_halt.trans selectOp_eq_halt).trans (BitVec.toNat_inj (y := 0x0000))

/-- A Running step at the word 0x0000 is HALT's next state (R100). -/
theorem step_of_fetchWord_zero (hrun : s.status = .running) (hfetch : fetchWord s = some 0x0000) :
    step s = .next (endHalted (encode .halt) s.pc (advancePc s)) :=
  (step_of_decode_ok hrun hfetch (decode_eq_halt_iff_word.mpr rfl)).trans exec_halt_eq

/-- A terminal state is its own next state (R94). -/
theorem step_terminal (h : s.status ≠ .running) : step s = .next s := by
  cases hs : s.status with
  | running => exact absurd hs h
  | halted => simp [step, hs]
  | faulted => simp [step, hs]

/-- Of the instructions only HALT takes a Running machine to Halted: ADD goes on, CALL and RET go on or
fault. -/
theorem exec_halted_only_halt {i : Instr} (hrun : s.status = .running) (h : exec i s = .next t)
    (hhalted : t.status = .halted) : i = .halt := by
  cases i with
  | halt => rfl
  | ret => obtain ⟨-, rfl⟩ | ⟨-, v, -, rfl⟩ := exec_ret_next h <;> simp [hrun] at hhalted
  | add x y => rw [exec_add_eq] at h; cases h; simp [hrun] at hhalted
  | call a => obtain ⟨-, rfl⟩ | ⟨-, -, rfl⟩ := exec_call_next h <;> simp [hrun] at hhalted

/-- A Running step that ends Halted fetched the word 0x0000: a failed fetch and UNIMPL end Faulted, and
the instruction that halts is HALT. -/
theorem fetchWord_of_step_halted (hrun : s.status = .running) (h : step s = .next t)
    (hhalted : t.status = .halted) : fetchWord s = some 0x0000 := by
  obtain ⟨hterm, -⟩ | ⟨-, -, rfl⟩ | ⟨-, op, -, -, rfl⟩ | ⟨-, op, i, hfetch, hdecode, hexec⟩ :=
    step_cases h
  · exact absurd hrun hterm
  · simp at hhalted
  · simp at hhalted
  · obtain rfl := exec_halted_only_halt hrun hexec hhalted
    rwa [decode_eq_halt_iff_word.mp hdecode] at hfetch

/-- Settles O16: the step that halts is HALT's, whose next state keeps registers and memory and is
terminal. -/
theorem haltIsTheOnlySuccess : Obligations.HaltIsTheOnlySuccess := by
  intro s t hrun h
  have hnext (hfetch : fetchWord s = some 0x0000) :
      t = endHalted (encode .halt) s.pc (advancePc s) := by
    simpa [step_of_fetchWord_zero hrun hfetch, eq_comm] using h
  refine ⟨⟨fetchWord_of_step_halted hrun h, fun hfetch => ?_⟩, fun hhalted => ?_⟩
  · rw [hnext hfetch, endHalted_status]
  · obtain rfl := hnext (fetchWord_of_step_halted hrun h hhalted)
    exact ⟨rfl, rfl, step_terminal (by simp)⟩

end Sys2Proof.Machine

/-! PROOFS. The ALU and ADD (42_arithmetic.md): the sum modulo 256 is the wrapping sum of two bytes (R112),
and ADD puts it into `V[x]` and touches nothing else but the pc (R110, R111). -/

namespace Sys2Proof.Machine

variable {s t : State} {x y : RegIndex}

/-! ### The ALU (R112) -/

/-- The ALU's sum is the wrapping sum of two bytes. -/
theorem aluSum_eq_add (a b : Byte) : aluSum a b = a + b := by
  apply BitVec.eq_of_toNat_eq
  simp [aluSum]

/-- The law as unsigned numbers. -/
theorem aluSum_toNat (a b : Byte) : (aluSum a b).toNat = (a.toNat + b.toNat) % 256 := by
  rw [aluSum_eq_add]
  exact BitVec.toNat_add a b

/-- The law in two's complement. -/
theorem aluSum_toInt (a b : Byte) : (aluSum a b).toInt = (a.toInt + b.toInt).bmod 256 := by
  rw [aluSum_eq_add]
  exact BitVec.toInt_add a b

/-! ### ADD (R110, R111) -/

/-- ADD's sum into `V[x]`, as unsigned numbers. -/
theorem exec_add_readReg_same_toNat (h : exec (.add x y) s = .next t) :
    (readReg t x).toNat = ((readReg s x).toNat + (readReg s y).toNat) % 256 := by
  rw [exec_add_readReg_same h, aluSum_toNat]

/-- ADD advances the pc; call stack, status and stop record are kept. -/
theorem exec_add_frame (h : exec (.add x y) s = .next t) :
    t.pc = s.pc + 2 ∧ t.sp = s.sp ∧ t.stack = s.stack ∧ t.status = s.status ∧ t.stop = s.stop := by
  rw [exec_add_eq] at h
  cases h
  exact ⟨rfl, rfl, rfl, rfl, rfl⟩

/-- Settles O17: the sum in `V[x]`, the other registers, the rest of the state, and memory, which no
instruction writes. -/
theorem addResult : Obligations.AddResult := by
  intro s x y
  have h := exec_add_eq (s := s) x y
  obtain ⟨hpc, hsp, hstack, hstatus, hstop⟩ := exec_add_frame h
  obtain ⟨hmem, hcfg⟩ := exec_keeps_mem_cfg h
  exact ⟨_, h, exec_add_readReg_same_toNat h, fun z hz => exec_add_readReg_ne hz h,
    hpc, hsp, hstack, hstatus, hstop, hcfg, memRead_congr hmem hcfg⟩

/-- Settles O18: the ALU law twice, and ADD with `V[y]` one of the registers other than `V[x]`. -/
theorem aluSumIsModulo256 : Obligations.AluSumIsModulo256 :=
  ⟨fun a b => ⟨aluSum_toNat a b, aluSum_toInt a b⟩,
    fun _ _ _ _ h => ⟨exec_add_readReg_same_toNat h, fun hne => exec_add_readReg_ne hne.symm h⟩⟩

end Sys2Proof.Machine

/-! PROOFS. The call stack (43_subroutine.md): what push and pop do and when there is none (R127, R128), and
that no step reads a slot at or above `sp`. -/

namespace Sys2Proof.Machine

variable {s t s' : State}

/-! ### The signals, and what there is to push and to pop (R127, R128) -/

theorem stackFull_iff : stackFull s = true ↔ s.sp = s.cfg.stackDepth := by
  simp [stackFull]

theorem stackEmpty_iff : stackEmpty s = true ↔ s.sp = 0 := by
  simp [stackEmpty]

theorem push_of_stackFull (v : Word) (h : stackFull s = true) : push v s = none :=
  Option.eq_none_iff_forall_ne_some.mpr fun _ hpush =>
    (push_eq_some.mp hpush).1.ne (stackFull_iff.mp h)

theorem pop_of_stackEmpty (h : stackEmpty s = true) : pop s = none :=
  Option.eq_none_iff_forall_ne_some.mpr fun _ hpop =>
    (pop_eq_some.mp hpop).1.ne' (stackEmpty_iff.mp h)

/-- Settles O22: below STACK_DEPTH the free slot exists, since the stack has STACK_DEPTH slots. -/
theorem pushWritesTheFreeSlot : Obligations.PushWritesTheFreeSlot := by
  intro s v hwf
  obtain ⟨-, -, -, hlen, -⟩ := hwf
  refine ⟨fun hdepth => ?_, stackFull_iff, push_of_stackFull v⟩
  have hslot : s.sp < s.stack.length := hlen ▸ hdepth
  exact ⟨_, push_eq_some.mpr ⟨hdepth, hslot, rfl⟩, rfl, List.getElem?_set_self hslot,
    fun k hk => List.getElem?_set_ne hk.symm, rfl, rfl, rfl⟩

/-! ### Machines that differ in dead slots only (R37, R128) -/

/-- To differ in dead slots only is to be the same state with another stack, as long and with the same
slots below `sp`. -/
theorem sameButDeadSlots_iff :
    SameButDeadSlots s s' ↔ ∃ stack, s' = { s with stack := stack } ∧
      stack.length = s.stack.length ∧ ∀ k < s.sp, stack[k]? = s.stack[k]? := by
  constructor
  · rintro ⟨hcfg, hlen, hobs⟩
    cases s
    cases s'
    simp only [observe, liveStack, Observation.mk.injEq] at hcfg hlen hobs
    obtain ⟨rfl, rfl, rfl, rfl, htake, rfl, rfl⟩ := hobs
    cases hcfg
    refine ⟨_, rfl, hlen.symm, fun k hk => ?_⟩
    rw [← List.getElem?_take_of_lt hk, ← htake, List.getElem?_take_of_lt hk]
  · rintro ⟨stack, rfl, hlen, hlive⟩
    have htake : stack.take s.sp = s.stack.take s.sp := by
      refine List.ext_getElem? fun k => ?_
      rw [List.getElem?_take, List.getElem?_take]
      split_ifs with hk
      · exact hlive k hk
      · rfl
    exact ⟨rfl, hlen.symm, by simp [observe, liveStack, htake]⟩

/-- An instruction does the same to two machines that differ in dead slots only: RET pops a live slot,
CALL writes the lowest dead one with the same value in both. -/
theorem exec_sameButDeadSlots {i : Instr} (hsame : SameButDeadSlots s s')
    (h : exec i s = .next t) : ∃ t', exec i s' = .next t' ∧ SameButDeadSlots t t' := by
  obtain ⟨stack, rfl, hlen, hlive⟩ := sameButDeadSlots_iff.mp hsame
  simp only [sameButDeadSlots_iff]
  cases i with
  | halt => rw [exec_halt_eq] at h; cases h; exact ⟨_, exec_halt_eq, stack, rfl, hlen, hlive⟩
  | ret =>
    obtain ⟨hsp, rfl⟩ | ⟨hsp, v, hv, rfl⟩ := exec_ret_next h
    · exact ⟨_, exec_ret_empty hsp, stack, rfl, hlen, hlive⟩
    · have hpop : stack[s.sp - 1]? = some v := (hlive _ (Nat.sub_one_lt_of_lt hsp)).trans hv
      exact ⟨_, exec_ret_pop hsp hpop, stack, rfl, hlen,
        fun k hk => hlive k (Nat.lt_of_lt_of_le hk (Nat.sub_le ..))⟩
  | add x y => rw [exec_add_eq] at h; cases h; exact ⟨_, exec_add_eq x y, stack, rfl, hlen, hlive⟩
  | call a =>
    obtain ⟨hsp, rfl⟩ | ⟨hdepth, hslot, rfl⟩ := exec_call_next h
    · exact ⟨_, exec_call_full a hsp, stack, rfl, hlen, hlive⟩
    · refine ⟨_, exec_call_push a hdepth (hlen ▸ hslot), _, rfl, by simpa using hlen, fun k hk => ?_⟩
      obtain hbelow | rfl := Nat.lt_succ_iff_lt_or_eq.mp hk
      · simpa [List.getElem?_set_ne hbelow.ne'] using hlive k hbelow
      · simp [hlen, hslot]

/-- A step does the same to two machines that differ in dead slots only: they fetch the same word. -/
theorem step_sameButDeadSlots (hsame : SameButDeadSlots s s') (h : step s = .next t) :
    ∃ t', step s' = .next t' ∧ SameButDeadSlots t t' := by
  obtain ⟨stack, rfl, hlen, hlive⟩ := sameButDeadSlots_iff.mp hsame
  have hfetch : fetchWord { s with stack := stack } = fetchWord s := fetchWord_congr rfl rfl rfl
  obtain ⟨hterm, rfl⟩ | ⟨hrun, hnone, rfl⟩ | ⟨hrun, op, hop, hsel, rfl⟩ |
    ⟨hrun, op, i, hop, hdecode, hexec⟩ := step_cases h
  · exact ⟨_, step_terminal hterm, hsame⟩
  · exact ⟨_, step_of_fetchWord_none hrun (hfetch.trans hnone),
      sameButDeadSlots_iff.mpr ⟨stack, rfl, hlen, hlive⟩⟩
  · exact ⟨_, step_of_selectOp_unimpl hrun (hfetch.trans hop) hsel,
      sameButDeadSlots_iff.mpr ⟨stack, rfl, hlen, hlive⟩⟩
  · obtain ⟨t', hexec', hsame'⟩ := exec_sameButDeadSlots hsame hexec
    have hstep := step_of_decode_ok (s := { s with stack := stack }) hrun (hfetch.trans hop) hdecode
    exact ⟨t', hstep.trans hexec', hsame'⟩

/-- Settles O23: above 0 the slot below `sp` exists, since the stack has STACK_DEPTH slots; and a step
does the same to machines that differ in dead slots only. -/
theorem onlyLiveSlotsAreRead : Obligations.OnlyLiveSlotsAreRead := by
  refine ⟨fun s hwf => ⟨fun hpos => ?_, stackEmpty_iff, pop_of_stackEmpty⟩,
    fun _ _ _ _ _ hsame h => step_sameButDeadSlots hsame h⟩
  obtain ⟨-, -, -, hlen, hsp⟩ := hwf
  have hslot : s.stack[s.sp - 1]? = some s.stack[s.sp - 1] := List.getElem?_eq_getElem (by omega)
  exact ⟨_, _, pop_eq_some.mpr ⟨hpos, hslot, rfl⟩, hslot, Nat.sub_add_cancel hpos⟩

end Sys2Proof.Machine

/-! PROOFS. Faults (60_exceptions.md): which reasons instructions and steps can put in the stop record
(R140, R145), and the state a stack fault leaves (R144). -/

namespace Sys2Proof.Machine

variable {s t : State}

/-! ### The reasons a step can record (R140, R145) -/

/-- An instruction leaves the stop record alone, or records HALT's NONE or one of the two stack faults. -/
theorem exec_stop_reason {i : Instr} (h : exec i s = .next t) :
    t.stop = s.stop ∨ t.stop.reason ∈ [.none, .stackOverflow, .stackUnderflow] := by
  cases i with
  | halt => rw [exec_halt_eq] at h; cases h; exact .inr (by simp)
  | ret =>
    obtain ⟨-, rfl⟩ | ⟨-, v, -, rfl⟩ := exec_ret_next h
    · exact .inr (by simp)
    · exact .inl rfl
  | add x y =>
    obtain ⟨-, -, -, -, hstop⟩ := exec_add_frame h
    exact .inl hstop
  | call a =>
    obtain ⟨-, rfl⟩ | ⟨-, -, rfl⟩ := exec_call_next h
    · exact .inr (by simp)
    · exact .inl rfl

/-- A step leaves the stop record alone, or records NONE or one of the four faults: every reason code
but the reserved one. -/
theorem step_stop_reason (h : step s = .next t) :
    t.stop = s.stop ∨
      t.stop.reason ∈ [.outOfBounds, .unimplementedOpcode, .none, .stackOverflow, .stackUnderflow] := by
  obtain ⟨-, rfl⟩ | ⟨-, -, rfl⟩ | ⟨-, op, -, -, rfl⟩ | ⟨-, op, i, -, -, hexec⟩ := step_cases h
  · exact .inl rfl
  · exact .inr (by simp)
  · exact .inr (by simp)
  · exact (exec_stop_reason hexec).imp_right fun hreason =>
      List.mem_cons_of_mem _ (List.mem_cons_of_mem _ hreason)

/-- Settles O31: a record that changed holds one of the reasons a step can record, and the reserved one
is not among them. -/
theorem arithmeticOverflowNeverRaised : Obligations.ArithmeticOverflowNeverRaised := by
  refine ⟨rfl, fun s t h hne => ?_⟩
  obtain hkept | hreason := step_stop_reason h
  · rwa [hkept]
  · exact ne_of_mem_of_not_mem hreason (by decide)

/-! ### Stack faults (R121, R126, R144) -/

/-- Settles O24: both are fault states taken at the fetch address, which keep all but the status and
the stop record. -/
theorem stackFaultsAreOutcomes : Obligations.StackFaultsAreOutcomes := fun _ =>
  ⟨fun a hfull => ⟨_, exec_call_full a hfull, rfl, rfl, rfl, rfl, rfl, rfl⟩,
    fun hempty => ⟨_, exec_ret_empty hempty, rfl, rfl, rfl, rfl, rfl, rfl⟩⟩

end Sys2Proof.Machine

/-! PROOFS. The encoder and the decoder are inverse to each other (30_encoding.md): a word decodes to an
instruction exactly when it is that instruction's encoding. Then what the assembler's text encodes
to (R74, R75), and how many words select an operation. -/

namespace Sys2Proof

variable {w : Word} {i : Instr}

/-! ### Words and instructions (R66, R68) -/

/-- The opcode map says of each instruction which number its word is, and the encoder builds the word of
that number. -/
theorem decode_eq_ok_iff_encode : decode w = .ok i ↔ encode i = w := by
  obtain ⟨hhalt, hret, hadd, hcall, -⟩ := opcodeMapOfEveryWord w
  rw [eq_comm (a := encode i), BitVec.toNat_eq]
  cases i with
  | halt => exact hhalt
  | ret => exact hret
  | add x y => rw [hadd, encode_add_toNat]
  | call a => rw [hcall, encode_call_toNat]

@[simp] theorem decode_encode (i : Instr) : decode (encode i) = .ok i :=
  decode_eq_ok_iff_encode.mpr rfl

/-- The two bytes of a word make it up again. -/
theorem wordOfBytes_of_bytes (w : Word) :
    wordOfBytes (w.extractLsb' 8 8) (w.extractLsb' 0 8) = w := by
  apply BitVec.eq_of_toNat_eq
  rw [wordOfBytes_toNat, BitVec.extractLsb'_toNat, BitVec.extractLsb'_toNat,
    Nat.shiftRight_eq_div_pow]
  omega

/-- The first two bytes decide, whatever follows them. -/
theorem decodeBytes_bytesOfWord (w : Word) (rest : List Byte) :
    decodeBytes (bytesOfWord w ++ rest) = (decode w).map (·, rest) := by
  simp only [bytesOfWord, List.cons_append, List.nil_append, decodeBytes, wordOfBytes_of_bytes]
  cases decode w <;> rfl

/-- Settles O1: each instruction's word decodes to it, and the word is what its two bytes make up. -/
theorem decodeOfEncodeIsIdentity : Obligations.DecodeOfEncodeIsIdentity := by
  intro i rest
  refine ⟨decode_encode i, ?_⟩
  rw [encodeBytes, decodeBytes_bytesOfWord, decode_encode]
  rfl

/-- Settles O2: the other half of the equivalence. -/
theorem encodeOfDecodeIsIdentity : Obligations.EncodeOfDecodeIsIdentity :=
  fun _ _ => decode_eq_ok_iff_encode.mp

/-- Settles O7: each of the six words is its instruction's encoding, and the other two lie in an UNIMPL
row of the opcode map. -/
theorem specWordsDecode : Obligations.SpecWordsDecode :=
  ⟨decode_encode .halt, decode_encode .ret, decode_encode (.add 0 1), decode_encode (.add 15 14),
    decode_encode (.call 0x100), decode_encode (.call 0xFFF),
    decode_eq_unimplemented.mpr (selectOp_eq_unimpl.mpr (by decide)),
    decode_eq_unimplemented.mpr (selectOp_eq_unimpl.mpr (by decide))⟩

/-! ### The assembler (R74, R75) -/

/-- The word of an ADD, as R74 writes it. -/
theorem encode_add_toNat_or (x y : RegIndex) :
    (encode (.add x y)).toNat = 0x8000 ||| x.toNat <<< 8 ||| y.toNat <<< 4 ||| 0x4 := by
  simp only [encode, BitVec.toNat_append, Nat.shiftLeft_or_distrib, ← Nat.shiftLeft_add]
  rfl

/-- The word of a CALL, as R74 writes it. -/
theorem encode_call_toNat_or (a : Target) : (encode (.call a)).toNat = 0x2000 ||| a.toNat := by
  simp only [encode, BitVec.toNat_append]
  rfl

theorem assemble_add (x y : Nat) :
    (Asm.add x y).assemble =
      if x < 16 ∧ y < 16 then some (.add (BitVec.ofNat 4 x) (BitVec.ofNat 4 y)) else none := by
  simp [Asm.assemble, Asm.wellFormed]

theorem assemble_call (a : Nat) :
    (Asm.call a).assemble = if a ≤ 0xFFF then some (.call (BitVec.ofNat 12 a)) else none := by
  simp [Asm.assemble, Asm.wellFormed]

/-- Settles O8: an operand in range fits its field, so the word is the one of its value. -/
theorem assemblerEncodesOperandsInRange : Obligations.AssemblerEncodesOperandsInRange := by
  refine ⟨⟨.halt, rfl, rfl⟩, ⟨.ret, rfl, rfl⟩, fun x y hx hy => ?_, fun x y hxy => ?_,
    fun a ha => ?_, fun a ha => ?_⟩
  · have hfit : x % 2 ^ 4 = x ∧ y % 2 ^ 4 = y := by omega
    refine ⟨_, (assemble_add x y).trans (if_pos (by omega)), ?_⟩
    rw [encode_add_toNat_or, BitVec.toNat_ofNat, BitVec.toNat_ofNat, hfit.1, hfit.2]
  · rw [assemble_add, if_neg (by omega)]
  · refine ⟨_, (assemble_call a).trans (if_pos ha), ?_⟩
    rw [encode_call_toNat_or, BitVec.toNat_ofNat, Nat.mod_eq_of_lt (by omega)]
  · rw [assemble_call, if_neg (by omega)]

/-! ### How many words select an operation -/

/-- The numbers of the words that select an operation: HALT and RET, the CALLs, the ADDs. -/
def operationWords : Finset Nat :=
  {0x0000, 0x00EE} ∪ (Finset.Ico 0x2000 0x3000 ∪
    (Finset.range 0x100).image fun k => 0x8004 + 0x10 * k)

theorem mem_operationWords {n : Nat} :
    n ∈ operationWords ↔ n < 0x10000 ∧ selectOp (BitVec.ofNat 16 n) ≠ .unimpl := by
  have hadd : (∃ k, k < 0x100 ∧ 0x8004 + 0x10 * k = n) ↔ n / 0x1000 = 8 ∧ n % 0x10 = 4 :=
    ⟨by omega, fun _ => ⟨(n - 0x8004) / 0x10, by omega⟩⟩
  simp only [operationWords, Finset.mem_union, Finset.mem_insert, Finset.mem_singleton,
    Finset.mem_Ico, Finset.mem_image, Finset.mem_range, hadd, ne_eq, selectOp_eq_unimpl,
    BitVec.toNat_ofNat]
  omega

/-- 2 exact words, one CALL for each address, one ADD for each pair of registers. -/
theorem card_operationWords : operationWords.card = 2 + (0x1000 + 0x100) := by
  have hcalls : Disjoint (Finset.Ico 0x2000 0x3000)
      ((Finset.range 0x100).image fun k => 0x8004 + 0x10 * k) := by
    simp only [Finset.disjoint_left, Finset.mem_Ico, Finset.mem_image]
    omega
  have hexact : Disjoint ({0x0000, 0x00EE} : Finset Nat) (Finset.Ico 0x2000 0x3000 ∪
      (Finset.range 0x100).image fun k => 0x8004 + 0x10 * k) := by
    simp only [Finset.disjoint_left, Finset.mem_insert, Finset.mem_singleton, Finset.mem_union,
      Finset.mem_Ico, Finset.mem_image]
    omega
  have hinj : Function.Injective fun k => 0x8004 + 0x10 * k := fun a b h => by
    simp only at h
    omega
  rw [operationWords, Finset.card_union_of_disjoint hexact, Finset.card_union_of_disjoint hcalls,
    Finset.card_image_of_injective _ hinj, Nat.card_Ico, Finset.card_range]
  rfl

/-- A count over the numbers below `n` is the size of a set of them. -/
theorem countP_range_eq_card (p : Nat → Bool) (n : Nat) :
    (List.range n).countP p = ((Finset.range n).filter fun k => p k = true).card := by
  simpa [Nat.count] using Nat.count_eq_card_filter_range (fun k => p k = true) n

/-- Words that select UNIMPL and words that do not are all the words of a list. -/
theorem countP_unimpl_add (l : List Nat) :
    l.countP (fun n => selectOp (BitVec.ofNat 16 n) != .unimpl) +
      l.countP (fun n => selectOp (BitVec.ofNat 16 n) == .unimpl) = l.length := by
  rw [l.length_eq_countP_add_countP fun n => selectOp (BitVec.ofNat 16 n) != .unimpl]
  congr 2
  ext n
  simp [beq_eq_decide]

/-- Settles O6: the words that select an operation are counted by kind, the others are the rest. -/
theorem operationWordCount : Obligations.OperationWordCount := by
  have hselect : (List.range 0x10000).countP
      (fun n => selectOp (BitVec.ofNat 16 n) != .unimpl) = 4354 := by
    rw [countP_range_eq_card]
    refine Eq.trans (congrArg Finset.card (Finset.ext fun n => ?_)) card_operationWords
    rw [mem_operationWords, Finset.mem_filter, Finset.mem_range, bne_iff_ne]
  have htotal := countP_unimpl_add (List.range 0x10000)
  rw [List.length_range, hselect] at htotal
  exact ⟨hselect, by omega⟩

end Sys2Proof

/-! PROOFS. The instructions' results, as whole next states (41_halt.md, 43_subroutine.md), and what a step
makes of them: the step of a decoded word (R83), the advanced pc (R26), and the next-pc table (R85). -/

namespace Sys2Proof.Machine

variable {s t : State} {w : Word}

/-! ### The pc sequencer (R26, R64) -/

@[simp] theorem callTarget_toNat (a : Target) : (callTarget a).toNat = a.toNat := by
  simp only [callTarget, BitVec.toNat_setWidth]
  omega

/-- After a fetch the advanced pc is within memory, so 16 bits hold it. -/
theorem advancedPc_toNat (hcfg : s.cfg.WellFormed) (hfetch : fetchWord s = some w) :
    (s.pc + 2#16).toNat = s.pc.toNat + 2 ∧ s.pc.toNat + 2 ≤ s.cfg.memSize := by
  obtain ⟨-, hsize, -⟩ := hcfg
  have hbound := fetchable_iff_lt.mp (fetchWord_eq_some.mp hfetch).1
  rw [BitVec.toNat_add, BitVec.toNat_ofNat]
  omega

/-- The fetch fails exactly where its two bytes do not both lie in memory (R42). -/
theorem fetchWord_eq_none_iff_lt : fetchWord s = none ↔ s.cfg.memSize < s.pc.toNat + 2 := by
  rw [fetchWord_eq_none, Bool.eq_false_iff, ne_eq, fetchable_iff_lt]
  omega

/-- Settles O13: the fetch's bound check leaves room for the advance. -/
theorem pcAdvanceNeverWraps : Obligations.PcAdvanceNeverWraps := by
  intro s w hcfg hfetch
  obtain ⟨hpc, hsize⟩ := advancedPc_toNat hcfg hfetch
  exact ⟨hpc, hpc.trans_le hsize⟩

/-- Settles O11: the two bytes are the fetched word. -/
theorem stepRunsDecodedInstruction : Obligations.StepRunsDecodedInstruction := by
  intro s hi lo i hrun hhi hlo hbytes
  have hdecode : decode (wordOfBytes hi lo) = .ok i := by
    simp only [decodeBytes] at hbytes
    split at hbytes
    · cases hbytes
      assumption
    · cases hbytes
  exact step_of_decode_ok hrun (fetchWord_of_memRead hhi hlo) hdecode

/-! ### HALT, CALL and RET (R100, R120, R121, R125, R126) -/

/-- Settles O15: HALT's next state, field by field. -/
theorem haltResult : Obligations.HaltResult := by
  intro s
  exact ⟨_, exec_halt_eq, rfl, rfl, rfl, fun hcfg hfetch => (advancedPc_toNat hcfg hfetch).1,
    fun _ => rfl, rfl, rfl, rfl, fun _ => rfl⟩

/-- Settles O19: with a free slot CALL pushes and jumps, on a full stack it faults. -/
theorem callResult : Obligations.CallResult := by
  intro s a
  constructor
  · intro hdepth hlen
    have hslot : s.sp < s.stack.length := hlen ▸ hdepth
    exact ⟨_, exec_call_push a hdepth hslot, callTarget_toNat a, rfl, List.length_set,
      List.getElem?_set_self hslot, fun k hk => List.getElem?_set_ne hk.symm, fun _ => rfl,
      rfl, rfl, rfl, fun _ => rfl⟩
  · intro hfull
    exact ⟨_, exec_call_full a hfull, rfl, rfl, rfl, rfl, rfl, fun _ => rfl, rfl, fun _ => rfl⟩

/-- Settles O20: above 0 RET pops and jumps, on an empty stack it faults. -/
theorem retResult : Obligations.RetResult := by
  intro s
  constructor
  · intro v hpos hv
    exact ⟨_, exec_ret_pop hpos hv, rfl, Nat.sub_add_cancel hpos, rfl, fun _ => rfl, rfl, rfl, rfl,
      fun _ => rfl⟩
  · intro hempty
    exact ⟨_, exec_ret_empty hempty, rfl, rfl, rfl, rfl, rfl, fun _ => rfl, rfl, fun _ => rfl⟩

/-! ### The next-pc table (R85, D5) -/

/-- Settles O14, row by row: a fault keeps the fetch address; a decoded word's step is its instruction,
whose next state is known. -/
theorem nextPcTable : Obligations.NextPcTable := by
  intro s t hwf hrun h
  obtain ⟨hcfg, -, -, hlen, hsp⟩ := hwf
  constructor
  · intro hnone
    rw [step_of_fetchWord_none hrun hnone] at h
    cases h
    rfl
  · intro w hfetch
    obtain ⟨hpc, -⟩ := advancedPc_toNat hcfg hfetch
    have hexec {i : Instr} (hdecode : decode w = .ok i) : exec i s = .next t :=
      (step_of_decode_ok hrun hfetch hdecode).symm.trans h
    refine ⟨fun hd => ?halt, fun x y hd => ?add, fun a hd => ?call, fun hd => ?ret, fun hd => ?unimpl⟩
    case halt =>
      have hhalt := hexec hd
      rw [exec_halt_eq] at hhalt
      cases hhalt
      exact hpc
    case add =>
      obtain ⟨hadvance, -⟩ := exec_add_frame (hexec hd)
      rw [hadvance]
      exact hpc
    case call =>
      obtain ⟨hfull, rfl⟩ | ⟨hdepth, -, rfl⟩ := exec_call_next (hexec hd)
      · exact ⟨fun hdepth => absurd hfull hdepth.ne, fun _ => rfl⟩
      · exact ⟨fun _ => callTarget_toNat a, fun hfull => absurd hfull hdepth.ne⟩
    case ret =>
      obtain ⟨hempty, rfl⟩ | ⟨hpos, v, hv, rfl⟩ := exec_ret_next (hexec hd)
      · exact ⟨fun hpos => absurd hempty hpos.ne', fun _ => rfl⟩
      · exact ⟨fun _ => hv, fun hempty => absurd hempty hpos.ne'⟩
    case unimpl =>
      rw [step_of_selectOp_unimpl hrun hfetch (decode_eq_unimplemented.mp hd)] at h
      cases h
      rfl

/-! ### CALLs on CALLs (R122, R130) -/

/-- Settles O25: the pushed state is Running with its pc where no opcode fits. -/
theorem callTargetIsNotChecked : Obligations.CallTargetIsNotChecked := by
  intro s a hwf hrun hdepth htarget
  obtain ⟨⟨hsize, -, -⟩, -, -, hlen, -⟩ := hwf
  have hbeyond : s.cfg.memSize < (callTarget a).toNat + 2 := by
    rw [callTarget_toNat]
    omega
  exact ⟨_, _, exec_call_push a hdepth (hlen ▸ hdepth), hrun,
    step_of_fetchWord_none hrun (fetchWord_eq_none_iff_lt.mpr hbeyond), rfl, rfl,
    callTarget_toNat a, rfl⟩

/-- CALLs one after another complete while there are free slots for them. -/
theorem execAll_calls (targets : List Target) (hlen : s.stack.length = s.cfg.stackDepth)
    (hroom : s.sp + targets.length ≤ s.cfg.stackDepth) :
    ∃ t, execAll (targets.map Instr.call) s = .next t ∧ t.sp = s.sp + targets.length ∧
      t.status = s.status ∧ t.cfg = s.cfg := by
  induction targets generalizing s with
  | nil => exact ⟨s, rfl, rfl, rfl, rfl⟩
  | cons a targets ih =>
    rw [List.length_cons] at hroom ⊢
    have hdepth : s.sp < s.cfg.stackDepth := by omega
    have hcall := exec_call_push a hdepth (hlen ▸ hdepth)
    obtain ⟨t, hall, hsp, hstatus, hcfg⟩ := ih (s := { s with
      pc := callTarget a, stack := s.stack.set s.sp (s.pc + 2#16), sp := s.sp + 1 })
      (List.length_set.trans hlen) (by simp only; omega)
    refine ⟨t, ?_, by simp only at hsp; omega, hstatus, hcfg⟩
    rw [List.map_cons, execAll, hcall]
    exact hall

/-- Settles O26: from an empty stack there is room for STACK_DEPTH CALLs, and they leave it full. -/
theorem nestedCallsUpToDepth : Obligations.NestedCallsUpToDepth := by
  intro s targets hwf hsp htargets
  obtain ⟨-, -, -, hlen, -⟩ := hwf
  obtain ⟨t, hall, hspt, hstatus, hcfg⟩ := execAll_calls targets hlen (by omega)
  have hfull : t.sp = s.cfg.stackDepth := by omega
  exact ⟨t, hall, hfull, hstatus, fun a =>
    ⟨_, exec_call_full a (hcfg.symm ▸ hfull), rfl, rfl, rfl, rfl⟩⟩

end Sys2Proof.Machine

/-! PROOFS. What a Running step can be, once for all (R87): one of the four faults, each with its cause
(R140), or one of the four instructions completed. From it, what every step and every run keeps
(R89 to R91), and what a fault leaves (R143, D4 to D6). -/

namespace Sys2Proof.Machine

variable {s t u : State} {w : Word} {n : Nat} {r : Reason} {o : Option Word}

/-! ### The faults and their causes (R140) -/

/-- The reason of each fault with its cause in the state at the fetch, and the opcode recorded with it. -/
inductive FaultCause (s : State) : Reason → Option Word → Prop
  | outOfBounds (hfetch : fetchWord s = none) : FaultCause s .outOfBounds none
  | unimplementedOpcode {w : Word} (hfetch : fetchWord s = some w) (hsel : selectOp w = .unimpl) :
      FaultCause s .unimplementedOpcode (some w)
  | stackOverflow {a : Target} (hfetch : fetchWord s = some (encode (.call a)))
      (hfull : s.sp = s.cfg.stackDepth) : FaultCause s .stackOverflow (some (encode (.call a)))
  | stackUnderflow (hfetch : fetchWord s = some (encode .ret)) (hempty : s.sp = 0) :
      FaultCause s .stackUnderflow (some (encode .ret))

/-- The next states of a Running state: a fault, or what an instruction leaves when it completes. -/
inductive Transition (s : State) : State → Prop
  | fault {r : Reason} {o : Option Word} (hcause : FaultCause s r o) :
      Transition s (faultState r o s.pc s)
  | halt (hfetch : fetchWord s = some (encode .halt)) :
      Transition s (endHalted (encode .halt) s.pc (advancePc s))
  | add {x y : RegIndex} (hfetch : fetchWord s = some (encode (.add x y))) :
      Transition s (writeReg x (aluSum (readReg s x) (readReg s y)) (advancePc s))
  | call {a : Target} (hfetch : fetchWord s = some (encode (.call a)))
      (hdepth : s.sp < s.cfg.stackDepth) (hslot : s.sp < s.stack.length) :
      Transition s { s with
        pc := callTarget a, stack := s.stack.set s.sp (s.pc + 2#16), sp := s.sp + 1 }
  | ret {v : Word} (hfetch : fetchWord s = some (encode .ret)) (hpos : 0 < s.sp)
      (hv : s.stack[s.sp - 1]? = some v) : Transition s { s with pc := v, sp := s.sp - 1 }

/-- A Running step at an instruction's word executes it. -/
theorem step_of_encode {i : Instr} (hrun : s.status = .running)
    (hfetch : fetchWord s = some (encode i)) : step s = exec i s :=
  step_of_decode_ok hrun hfetch (decode_encode i)

/-- A cause of a fault makes a Running step take that fault. -/
theorem step_of_faultCause (hrun : s.status = .running) (hcause : FaultCause s r o) :
    step s = .next (faultState r o s.pc s) := by
  cases hcause with
  | outOfBounds hfetch => exact step_of_fetchWord_none hrun hfetch
  | unimplementedOpcode hfetch hsel => exact step_of_selectOp_unimpl hrun hfetch hsel
  | stackOverflow hfetch hfull => exact (step_of_encode hrun hfetch).trans (exec_call_full _ hfull)
  | stackUnderflow hfetch hempty => exact (step_of_encode hrun hfetch).trans (exec_ret_empty hempty)

/-- An executed instruction makes one of the transitions. -/
theorem transition_of_exec {i : Instr} (hfetch : fetchWord s = some (encode i))
    (h : exec i s = .next t) : Transition s t := by
  cases i with
  | halt => rw [exec_halt_eq] at h; cases h; exact .halt hfetch
  | ret =>
    obtain ⟨hempty, rfl⟩ | ⟨hpos, v, hv, rfl⟩ := exec_ret_next h
    · exact .fault (.stackUnderflow hfetch hempty)
    · exact .ret hfetch hpos hv
  | add x y => rw [exec_add_eq] at h; cases h; exact .add hfetch
  | call a =>
    obtain ⟨hfull, rfl⟩ | ⟨hdepth, hslot, rfl⟩ := exec_call_next h
    · exact .fault (.stackOverflow hfetch hfull)
    · exact .call hfetch hdepth hslot

/-- The steps of a Running state are the transitions. -/
theorem step_iff_transition (hrun : s.status = .running) : step s = .next t ↔ Transition s t := by
  constructor
  · intro h
    obtain ⟨hterm, -⟩ | ⟨-, hfetch, rfl⟩ | ⟨-, w, hfetch, hsel, rfl⟩ |
      ⟨-, w, i, hfetch, hdecode, hexec⟩ := step_cases h
    · exact absurd hrun hterm
    · exact .fault (.outOfBounds hfetch)
    · exact .fault (.unimplementedOpcode hfetch hsel)
    · obtain rfl := decode_eq_ok_iff_encode.mp hdecode
      exact transition_of_exec hfetch hexec
  · intro h
    cases h with
    | fault hcause => exact step_of_faultCause hrun hcause
    | halt hfetch => exact (step_of_encode hrun hfetch).trans exec_halt_eq
    | add hfetch => exact (step_of_encode hrun hfetch).trans (exec_add_eq _ _)
    | call hfetch hdepth hslot =>
      exact (step_of_encode hrun hfetch).trans (exec_call_push _ hdepth hslot)
    | ret hfetch hpos hv => exact (step_of_encode hrun hfetch).trans (exec_ret_pop hpos hv)

/-- Any step: a terminal state stays, a Running one makes a transition. -/
theorem step_terminal_or_transition (h : step s = .next t) :
    (s.status ≠ .running ∧ t = s) ∨ (s.status = .running ∧ Transition s t) := by
  by_cases hrun : s.status = .running
  · exact .inr ⟨hrun, (step_iff_transition hrun).mp h⟩
  · rw [step_terminal hrun] at h
    cases h
    exact .inl ⟨hrun, rfl⟩

/-! ### What a fault leaves, and when it is taken (R140, R143, R146) -/

/-- The opcode recorded is what the fetch gave, and the fetch gave none only out of bounds. -/
theorem FaultCause.opcode_eq (hcause : FaultCause s r o) :
    o = fetchWord s ∧ (r = .outOfBounds ↔ o = none) := by
  cases hcause with
  | outOfBounds hfetch => exact ⟨hfetch.symm, by simp⟩
  | unimplementedOpcode hfetch _ => exact ⟨hfetch.symm, by simp⟩
  | stackOverflow hfetch _ => exact ⟨hfetch.symm, by simp⟩
  | stackUnderflow hfetch _ => exact ⟨hfetch.symm, by simp⟩

/-- A Running step that ends Faulted took a fault that had its cause. -/
theorem faultCause_of_step_faulted (hrun : s.status = .running) (h : step s = .next t)
    (hfaulted : t.status = .faulted) : ∃ r o, FaultCause s r o ∧ t = faultState r o s.pc s := by
  cases (step_iff_transition hrun).mp h with
  | fault hcause => exact ⟨_, _, hcause, rfl⟩
  | halt _ => simp at hfaulted
  | add _ => simp [hrun] at hfaulted
  | call _ _ _ => simp [hrun] at hfaulted
  | ret _ _ _ => simp [hrun] at hfaulted

/-- Settles O29: the fault's state is `faultState` at the fetch address, its record the cause's. -/
theorem faultsArePrecise : Obligations.FaultsArePrecise := by
  intro s t hrun h hfaulted
  obtain ⟨r, o, hcause, rfl⟩ := faultCause_of_step_faulted hrun h hfaulted
  obtain ⟨hopcode, hreason⟩ := hcause.opcode_eq
  exact ⟨rfl, rfl, hopcode, hreason⟩

/-- A Running step ends Faulted with a reason exactly when that reason has its cause. -/
theorem step_faulted_iff (hrun : s.status = .running) (h : step s = .next t) :
    t.status = .faulted ∧ t.stop.reason = r ↔ ∃ o, FaultCause s r o := by
  constructor
  · rintro ⟨hfaulted, rfl⟩
    obtain ⟨r, o, hcause, rfl⟩ := faultCause_of_step_faulted hrun h hfaulted
    exact ⟨o, hcause⟩
  · rintro ⟨o, hcause⟩
    rw [step_of_faultCause hrun hcause] at h
    cases h
    exact ⟨rfl, rfl⟩

/-- Settles O30: each reason has one cause, and it is the one the statement names. -/
theorem faultCauses : Obligations.FaultCauses := by
  intro s t _ hrun h
  simp only [step_faulted_iff hrun h]
  refine ⟨⟨?_, fun hsize => ?_⟩, ⟨?_, ?_⟩, ⟨?_, ?_⟩, ⟨?_, ?_⟩⟩
  · rintro ⟨_, hcause⟩
    cases hcause with
    | outOfBounds hfetch => exact fetchWord_eq_none_iff_lt.mp hfetch
  · exact ⟨_, .outOfBounds (fetchWord_eq_none_iff_lt.mpr hsize)⟩
  · rintro ⟨_, hcause⟩
    cases hcause with
    | unimplementedOpcode hfetch hsel => exact ⟨_, hfetch, selectOp_eq_firstMatch _ ▸ hsel⟩
  · rintro ⟨w, hfetch, hsel⟩
    exact ⟨_, .unimplementedOpcode hfetch ((selectOp_eq_firstMatch w).trans hsel)⟩
  · rintro ⟨_, hcause⟩
    cases hcause with
    | stackOverflow hfetch hfull => exact ⟨_, hfetch, hfull⟩
  · rintro ⟨a, hfetch, hfull⟩
    exact ⟨_, .stackOverflow hfetch hfull⟩
  · rintro ⟨_, hcause⟩
    cases hcause with
    | stackUnderflow hfetch hempty => exact ⟨hfetch, hempty⟩
  · rintro ⟨hfetch, hempty⟩
    exact ⟨_, .stackUnderflow hfetch hempty⟩

/-! ### What steps and runs keep (R8, R9, R91, R94, R129) -/

/-- Settles O32: a step changes nothing in a terminal state, so no number of them does. -/
theorem terminalStatesAbsorb : Obligations.TerminalStatesAbsorb := by
  intro s n hterm
  have hrun : s.status ≠ .running := by
    intro hrun
    simp [hrun] at hterm
  induction n with
  | zero => exact core_run_zero.mpr rfl
  | succ n ih => exact core_run_succ.mpr ⟨s, step_terminal hrun, ih⟩

/-- Settles O34: of the transitions only CALL and RET touch `sp`, by one, and only CALL writes a slot. -/
theorem parametersAreFixed : Obligations.ParametersAreFixed := by
  intro s t h
  obtain ⟨-, hcfg⟩ := step_keeps_mem_cfg h
  refine ⟨hcfg, ?_⟩
  obtain ⟨-, rfl⟩ | ⟨-, htrans⟩ := step_terminal_or_transition h
  · exact ⟨rfl, Nat.le_succ _, Nat.le_succ _⟩
  cases htrans with
  | fault _ => exact ⟨rfl, Nat.le_succ _, Nat.le_succ _⟩
  | halt _ => exact ⟨rfl, Nat.le_succ _, Nat.le_succ _⟩
  | add _ => exact ⟨rfl, Nat.le_succ _, Nat.le_succ _⟩
  | call _ _ _ => exact ⟨List.length_set, Nat.le_refl _, by simp only; omega⟩
  | ret _ _ _ => exact ⟨rfl, by simp only; omega, by simp only; omega⟩

/-- The same cause is there with any other register file. -/
theorem FaultCause.withRegs (regs : Vector Byte numRegs) (hcause : FaultCause s r o) :
    FaultCause (s.withRegs regs) r o := by
  cases hcause with
  | outOfBounds hfetch => exact .outOfBounds hfetch
  | unimplementedOpcode hfetch hsel => exact .unimplementedOpcode hfetch hsel
  | stackOverflow hfetch hfull => exact .stackOverflow hfetch hfull
  | stackUnderflow hfetch hempty => exact .stackUnderflow hfetch hempty

/-- With another register file a transition goes to the same state but for its registers. -/
theorem Transition.withRegs (regs : Vector Byte numRegs) (htrans : Transition s t) :
    ∃ regs', Transition (s.withRegs regs) (t.withRegs regs') := by
  cases htrans with
  | fault hcause => exact ⟨regs, .fault (hcause.withRegs regs)⟩
  | halt hfetch => exact ⟨regs, .halt (s := s.withRegs regs) hfetch⟩
  | add hfetch => exact ⟨_, .add (s := s.withRegs regs) hfetch⟩
  | call hfetch hdepth hslot => exact ⟨regs, .call (s := s.withRegs regs) hfetch hdepth hslot⟩
  | ret hfetch hpos hv => exact ⟨regs, .ret (s := s.withRegs regs) hfetch hpos hv⟩

theorem step_withRegs (regs : Vector Byte numRegs) (h : step s = .next t) :
    ∃ regs', step (s.withRegs regs) = .next (t.withRegs regs') := by
  obtain ⟨hterm, rfl⟩ | ⟨hrun, htrans⟩ := step_terminal_or_transition h
  · exact ⟨regs, step_terminal hterm⟩
  · obtain ⟨regs', htrans'⟩ := htrans.withRegs regs
    exact ⟨regs', (step_iff_transition (s := s.withRegs regs) hrun).mpr htrans'⟩

/-- Settles O35, step by step. -/
theorem registersNeverSteerControl : Obligations.RegistersNeverSteerControl := by
  intro n s t regs h
  induction n generalizing s regs with
  | zero =>
    obtain rfl := core_run_zero.mp h
    exact ⟨regs, core_run_zero.mpr rfl⟩
  | succ n ih =>
    obtain ⟨u, hstep, hrest⟩ := core_run_succ.mp h
    obtain ⟨regs', hstep'⟩ := step_withRegs regs hstep
    obtain ⟨regs'', hrest'⟩ := ih _ regs' hrest
    exact ⟨regs'', core_run_succ.mpr ⟨_, hstep', hrest'⟩⟩

/-- No step writes a live slot: a push writes the slot at `sp`. -/
theorem step_keeps_live_slot {k : Nat} (hk : k < s.sp) (h : step s = .next t) :
    t.stack[k]? = s.stack[k]? := by
  obtain ⟨-, rfl⟩ | ⟨-, htrans⟩ := step_terminal_or_transition h
  · rfl
  cases htrans with
  | fault _ => rfl
  | halt _ => rfl
  | add _ => rfl
  | call _ _ _ => exact List.getElem?_set_ne hk.ne'
  | ret _ _ _ => rfl

/-- Nor does a run during which the slot stays live. -/
theorem core_run_keeps_live_slot {k : Nat} (h : core.run n s = .next t)
    (hlive : ∀ (j : Nat) (v : State), j ≤ n → core.run j s = .next v → k < v.sp) :
    t.stack[k]? = s.stack[k]? := by
  induction n generalizing s with
  | zero => rw [core_run_zero.mp h]
  | succ n ih =>
    obtain ⟨u, hstep, hrest⟩ := core_run_succ.mp h
    have hk : k < s.sp := hlive 0 s (Nat.zero_le _) (core_run_zero.mpr rfl)
    rw [ih hrest fun j v hj hv =>
      hlive (j + 1) v (Nat.succ_le_succ hj) (core_run_succ.mpr ⟨u, hstep, hv⟩)]
    exact step_keeps_live_slot hk hstep

/-- Settles O27: the CALL's slot stays live for the whole run, so it holds the return address when the
RET pops it. -/
theorem callReturnRoundTrip : Obligations.CallReturnRoundTrip := by
  intro s t u a n hwf hdepth hcall hnever hrun hsp
  obtain ⟨-, -, -, hlen, -⟩ := hwf
  have hslot : s.sp < s.stack.length := hlen ▸ hdepth
  rw [exec_call_push a hdepth hslot] at hcall
  cases hcall
  have hkept := core_run_keeps_live_slot (k := s.sp) hrun hnever
  have hpop : u.stack[u.sp - 1]? = some (s.pc + 2#16) := by
    rw [hsp]
    exact hkept.trans (List.getElem?_set_self hslot)
  refine ⟨_, exec_ret_pop (by simp only at hsp; omega) hpop, rfl, ?_⟩
  simp only at hsp ⊢
  omega

end Sys2Proof.Machine

/-! PROOFS. The invariant (10_state.md): every step keeps it, each of its three parts on its own; and the
canonical form of memory, which makes equal memories equal data (20_memory.md section 1). -/

namespace Sys2Proof.Machine

variable {s t : State} {r : Reason} {o : Option Word} {v : Word}

/-! ### Live return addresses (R30, R125, R127, R128) -/

/-- A push adds its value to the live return addresses. -/
theorem liveStack_push (pc : Word) (hslot : s.sp < s.stack.length) :
    liveStack { s with pc := pc, stack := s.stack.set s.sp v, sp := s.sp + 1 } =
      liveStack s ++ [v] := by
  simp only [liveStack]
  rw [List.take_add_one, List.take_set_of_le (Nat.le_refl _), List.getElem?_set_self hslot]
  rfl

/-- A pop takes its value from the live return addresses. -/
theorem liveStack_pop (pc : Word) (hpos : 0 < s.sp) (hv : s.stack[s.sp - 1]? = some v) :
    liveStack s = liveStack { s with pc := pc, sp := s.sp - 1 } ++ [v] := by
  simp only [liveStack]
  conv_lhs => rw [← Nat.sub_add_cancel hpos, List.take_add_one, hv]
  rfl

/-! ### The three parts of the invariant -/

/-- Memory and parameters are kept, and `sp` moves by one from where there is room for it to. -/
theorem step_keeps_wellFormed (hwf : s.WellFormed) (h : step s = .next t) : t.WellFormed := by
  obtain ⟨hcfg, hmem, hbound, hlen, hsp⟩ := hwf
  obtain ⟨hmem', hcfg'⟩ := step_keeps_mem_cfg h
  obtain ⟨-, hlen', -, -⟩ := parametersAreFixed s t h
  have hsp' : t.sp ≤ s.cfg.stackDepth := by
    obtain ⟨-, rfl⟩ | ⟨-, htrans⟩ := step_terminal_or_transition h
    · exact hsp
    cases htrans with
    | fault _ => exact hsp
    | halt _ => exact hsp
    | add _ => exact hsp
    | call _ hdepth _ => exact hdepth
    | ret _ _ _ => exact (Nat.sub_le _ _).trans hsp
  rw [State.WellFormed, hmem', hcfg', hlen']
  exact ⟨hcfg, hmem, hbound, hlen, hsp'⟩

/-- A step adds at most one live return address, the advanced pc of a fetch that was within memory. -/
theorem step_keeps_returnsFit (hcfg : s.cfg.WellFormed) (hfit : returnsFit s = true)
    (h : step s = .next t) : returnsFit t = true := by
  obtain ⟨-, rfl⟩ | ⟨-, htrans⟩ := step_terminal_or_transition h
  · exact hfit
  cases htrans with
  | fault _ => exact hfit
  | halt _ => exact hfit
  | add _ => exact hfit
  | call hfetch _ hslot =>
    obtain ⟨hpc, hsize⟩ := advancedPc_toNat hcfg hfetch
    rw [returnsFit_iff, liveStack_push _ hslot]
    intro a ha
    obtain ha | ha := List.mem_append.mp ha
    · exact (returnsFit_iff s).mp hfit a ha
    · rw [List.mem_singleton.mp ha]
      exact hpc.trans_le hsize
  | @ret v _ hpos hv =>
    refine (returnsFit_iff _).mpr fun a ha => (returnsFit_iff s).mp hfit a ?_
    rw [liveStack_pop v hpos hv]
    exact List.mem_append_left _ ha

theorem fetchWord_faultState (r : Reason) (o : Option Word) (s : State) :
    fetchWord (faultState r o s.pc s) = fetchWord s := fetchWord_congr rfl rfl rfl

/-- A fault's state still shows its cause: the fault kept all the cause speaks of (D5). -/
theorem faultRecordFits_of_faultCause (hcause : FaultCause s r o) :
    faultRecordFits (faultState r o s.pc s) = true := by
  cases hcause with
  | outOfBounds hfetch =>
    simpa [faultRecordFits] using fetchWord_eq_none.mp ((fetchWord_faultState _ _ s).trans hfetch)
  | unimplementedOpcode hfetch hsel => simp [faultRecordFits, fetchWord_faultState, hfetch, hsel]
  | @stackOverflow a hfetch hfull =>
    obtain ⟨hsel, -⟩ := decode_eq_call.mp (decode_encode (.call a))
    simp [faultRecordFits, fetchWord_faultState, hfetch, hsel, stackFull, hfull]
  | stackUnderflow hfetch hempty =>
    simp [faultRecordFits, fetchWord_faultState, hfetch, stackEmpty, hempty, encode]

/-- The record stays empty while the machine goes on, and fits what ended the run (D4, D5, D6). -/
theorem step_keeps_stopFits (hfit : stopFits s = true) (h : step s = .next t) :
    stopFits t = true := by
  obtain ⟨-, rfl⟩ | ⟨hrun, htrans⟩ := step_terminal_or_transition h
  · exact hfit
  have hempty : s.stop = StopRecord.empty := by simpa [stopFits, hrun] using hfit
  cases htrans with
  | fault hcause => simp [stopFits, faultRecordFits_of_faultCause hcause]
  | halt _ => simp [stopFits, encode]
  | add _ => simp [stopFits, hrun, hempty]
  | call _ _ _ => simp [stopFits, hrun, hempty]
  | ret _ _ _ => simp [stopFits, hrun, hempty]

/-- Settles O37, part by part. -/
theorem stepKeepsInv : Obligations.StepKeepsInv := by
  rintro s t ⟨hwf, hreturns, hstop⟩ h
  have hcfg : s.cfg.WellFormed := hwf.1
  exact ⟨step_keeps_wellFormed hwf h, step_keeps_returnsFit hcfg hreturns h,
    step_keeps_stopFits hstop h⟩

/-! ### Memories that read alike (R40) -/

theorem Memory.read_head (c : Host.Cell) (m : Memory) : Memory.read (c :: m) c.1 = c.2 := by
  simp [Memory.read]

/-- No address below the head of a canonical memory is listed. -/
theorem Memory.head_le_of_read_ne {c : Host.Cell} {m : Memory} {a : Nat} (hm : Memory.wf (c :: m))
    (ha : Memory.read (c :: m) a ≠ unlistedByte) : c.1 ≤ a := by
  obtain ⟨habove, -, -⟩ := Memory.wf_cons.mp hm
  by_contra hlt
  refine ha (Memory.read_of_above fun d hd => ?_)
  obtain rfl | hd := List.mem_cons.mp hd
  · omega
  · exact (Nat.not_le.mp hlt).trans (habove d hd)

/-- What a canonical memory reads as determines what its tail does. -/
theorem Memory.read_tail {c : Host.Cell} {m : Memory} (hm : Memory.wf (c :: m)) (a : Nat) :
    Memory.read m a = if a = c.1 then unlistedByte else Memory.read (c :: m) a := by
  obtain ⟨habove, -, -⟩ := Memory.wf_cons.mp hm
  split_ifs with ha
  · exact ha ▸ Memory.read_of_above habove
  · simp [Memory.read, Ne.symm ha]

/-- Settles O38: the heads are the lowest listed address of each, so they are the same cell, and the
tails read alike. -/
theorem canonicalMemoriesAgree : Obligations.CanonicalMemoriesAgree := by
  intro m n hm hn hread
  induction m generalizing n with
  | nil =>
    cases n with
    | nil => rfl
    | cons d n =>
      obtain ⟨-, hne, -⟩ := Memory.wf_cons.mp hn
      exact absurd ((Memory.read_head d n).symm.trans (hread d.1).symm) hne
  | cons c m ih =>
    obtain ⟨-, hc, hm'⟩ := Memory.wf_cons.mp hm
    cases n with
    | nil => exact absurd ((Memory.read_head c m).symm.trans (hread c.1)) hc
    | cons d n =>
      obtain ⟨-, hd, hn'⟩ := Memory.wf_cons.mp hn
      have hdc : d.1 ≤ c.1 := Memory.head_le_of_read_ne hn <| by
        rwa [← hread, Memory.read_head]
      have hcd : c.1 ≤ d.1 := Memory.head_le_of_read_ne hm <| by
        rwa [hread, Memory.read_head]
      have haddr : c.1 = d.1 := Nat.le_antisymm hcd hdc
      have hbyte : c.2 = d.2 := by
        rw [← Memory.read_head c m, hread, haddr, Memory.read_head]
      have htail : m = n := ih n hm' hn' fun a => by
        rw [Memory.read_tail hm, Memory.read_tail hn, hread, haddr]
      rw [htail, Prod.ext haddr hbyte]

end Sys2Proof.Machine

/-! PROOFS. Construction (70_reset_and_hazards.md): which input it accepts (R170, D10), what it leaves (R38),
and what the image means for every run from it (R53, R101). -/

namespace Sys2Proof.Machine

variable {s t : State} {cfg : Config} {c : Construction} {n : Nat}

/-- Settles O42: acceptance is the two well-formedness checks, whose two ranges for a register entry the
statement says together. -/
theorem constructionAcceptsInputInRange : Obligations.ConstructionAcceptsInputInRange := by
  intro cfg c
  simp only [construct_eq_ok, exists_and_left, exists_eq, and_true]
  refine and_congr_right fun _ => and_congr_right fun _ => ?_
  rw [← and_assoc]
  refine and_congr_left fun _ => ⟨?_, ?_⟩
  · rintro ⟨hindex, hvalue⟩ i v hmem
    exact ⟨Nat.le_of_lt_succ (hindex (i, v) hmem), hvalue (i, v) hmem⟩
  · intro hrange
    exact ⟨fun r hr => Nat.lt_succ_of_le (hrange r.1 r.2 hr).1, fun r hr => (hrange r.1 r.2 hr).2⟩

/-- A constructed memory is the image, and zero after it (R40). -/
theorem memRead_of_construct (h : construct cfg c = .ok s) {a : Nat} (ha : a < cfg.memSize) :
    s.memRead a = some (c.image.getD a 0) := by
  obtain ⟨-, -, rfl⟩ := construct_eq_ok.mp h
  exact memRead_eq_some.mpr ⟨ha, Memory.read_load c.image a⟩

/-- A constructed state meets the invariant: its memory is loaded within the address space, no return
address is live, and the stop record is empty. -/
theorem inv_of_construct (h : construct cfg c = .ok s) : Inv s := by
  obtain ⟨hcfg, ⟨himage, -⟩, rfl⟩ := construct_eq_ok.mp h
  have hbound : ∀ cell ∈ Memory.load c.image, cell.1 < cfg.memSize := fun cell hcell =>
    ((Memory.mem_loadFrom hcell).trans_eq (Nat.zero_add _)).trans_le himage
  exact ⟨⟨hcfg, Memory.wf_load c.image, hbound, List.length_replicate, Nat.zero_le _⟩, rfl, rfl⟩

/-- Settles O36: the state after reset is a constructed one. -/
theorem invHoldsAtReset : Obligations.InvHoldsAtReset :=
  inv_of_construct (cfg := Config.reference) (c := {})
    (construct_eq_ok.mpr ⟨by decide, by decide, by decide⟩)

/-- Settles O43, field by field. -/
theorem constructedState : Obligations.ConstructedState := by
  intro cfg c s h
  have hmem {a : Nat} (ha : a < cfg.memSize) := memRead_of_construct h ha
  have hinv := inv_of_construct h
  obtain ⟨-, ⟨-, -, -, hpc, -⟩, rfl⟩ := construct_eq_ok.mp h
  refine ⟨rfl, ?_, rfl, fun k hk => ?_, rfl, rfl, fun a ha => hmem ha,
    fun a ha => memRead_eq_none.mpr ha, hinv⟩
  · exact (BitVec.toNat_ofNat _ _).trans (Nat.mod_eq_of_lt (Nat.lt_succ_of_le hpc))
  · exact List.getElem?_replicate_of_lt hk

/-- Settles O44: the image is in memory at the start, and no run writes memory. -/
theorem runKeepsConstructionImage : Obligations.RunKeepsConstructionImage := by
  intro cfg c s t n h hrun a ha
  obtain ⟨hmem, hcfg⟩ := core_run_keeps_mem_cfg hrun
  rw [memRead_congr hmem hcfg]
  exact memRead_of_construct h ha

/-- Settles O45: past the image the fetch reads two zero bytes, which are HALT's word. -/
theorem zeroFilledMemoryHalts : Obligations.ZeroFilledMemoryHalts := by
  intro cfg c s t n h hrun hstatus himage hpc
  obtain ⟨hcfg, -, hs⟩ := construct_eq_ok.mp h
  have hcfgt : t.cfg = cfg := by rw [(core_run_keeps_mem_cfg hrun).2, hs, constructed]
  have hzero {a : Nat} (hlow : c.image.length ≤ a) (hhigh : a < cfg.memSize) :
      t.memRead a = some 0 := by
    rw [runKeepsConstructionImage cfg c s t n h hrun a hhigh, List.getD_eq_default _ _ hlow]
  have hsize : 2 ≤ cfg.memSize := hcfg.1
  have hfetch : fetchWord t = some 0x0000 :=
    fetchWord_of_memRead (hzero himage (by omega)) (hzero (by omega) (by omega))
  exact ⟨_, step_of_fetchWord_zero hstatus hfetch, rfl,
    (advancedPc_toNat (hcfgt.symm ▸ hcfg) hfetch).1, rfl⟩

end Sys2Proof.Machine

/-! PROOFS. Runs end (40_instruction_cycle.md section 2, R91). A state is measured by how far memory's end
is from each live return address and from the pc, written as the digits of one number in base
MEM_SIZE + 1, the oldest return address first: at one depth the pc only rises, and what a deeper frame
adds counts less than the rise of the return address below it. -/

namespace Sys2Proof.Machine

variable {s t u : State} {m n : Nat}

/-! ### The measure -/

/-- How far a frame at `v` is from the end of memory. -/
def toGo (cfg : Config) (v : Word) : Nat := cfg.memSize - v.toNat

/-- The number whose digits in base MEM_SIZE + 1 are what is left to go in each frame. -/
def framesValue (cfg : Config) (frames : List Word) : Nat :=
  frames.foldl (fun acc v => acc * (cfg.memSize + 1) + toGo cfg v) 0

theorem framesValue_append (cfg : Config) (frames : List Word) (v : Word) :
    framesValue cfg (frames ++ [v]) = framesValue cfg frames * (cfg.memSize + 1) + toGo cfg v := by
  simp [framesValue]

/-- A new frame is one more digit: it keeps the value below a bound, whatever its pc. -/
theorem framesValue_append_lt_mul {cfg : Config} {frames : List Word} {bound : Nat} (v : Word)
    (h : framesValue cfg frames < bound) :
    framesValue cfg (frames ++ [v]) < bound * (cfg.memSize + 1) := by
  have hdigit : toGo cfg v < cfg.memSize + 1 := Nat.lt_succ_of_le (Nat.sub_le _ _)
  calc framesValue cfg (frames ++ [v])
      < (framesValue cfg frames + 1) * (cfg.memSize + 1) := by
        rw [framesValue_append, Nat.succ_mul]
        exact Nat.add_lt_add_left hdigit _
    _ ≤ bound * (cfg.memSize + 1) := Nat.mul_le_mul_right _ h

theorem framesValue_lt (cfg : Config) (frames : List Word) :
    framesValue cfg frames < (cfg.memSize + 1) ^ frames.length := by
  induction frames using List.reverseRecOn with
  | nil => exact Nat.one_pos
  | append_singleton frames v ih =>
    rw [List.length_append, List.length_singleton, Nat.pow_succ]
    exact framesValue_append_lt_mul v ih

/-- The measure of a state: the frames' value, with a digit 0 for each free slot. -/
def runMeasure (s : State) : Nat :=
  framesValue s.cfg (liveStack s ++ [s.pc]) * (s.cfg.memSize + 1) ^ (s.cfg.stackDepth - s.sp)

/-- The measure is below the model's bound on the steps of a run (log 15). -/
theorem runMeasure_lt_runBound (hsp : s.sp ≤ s.cfg.stackDepth) : runMeasure s < runBound s.cfg := by
  have hlive : (liveStack s).length ≤ s.sp := List.length_take_le _ _
  have hpos : 0 < s.cfg.memSize + 1 := Nat.succ_pos _
  calc runMeasure s
      < (s.cfg.memSize + 1) ^ (liveStack s ++ [s.pc]).length *
          (s.cfg.memSize + 1) ^ (s.cfg.stackDepth - s.sp) :=
        Nat.mul_lt_mul_of_pos_right (framesValue_lt _ _) (Nat.pow_pos hpos)
    _ = (s.cfg.memSize + 1) ^ ((liveStack s).length + 1 + (s.cfg.stackDepth - s.sp)) := by
        rw [← Nat.pow_add, List.length_append, List.length_singleton]
    _ ≤ (s.cfg.memSize + 1) ^ (s.cfg.stackDepth + 1) := Nat.pow_le_pow_right hpos (by omega)
    _ ≤ runBound s.cfg := Nat.le_mul_of_pos_left _ (Nat.succ_pos _)

/-! ### Each step lowers it -/

/-- The advance of the pc lowers what is left to go. -/
theorem toGo_advancedPc_lt {w : Word} (hcfg : s.cfg.WellFormed) (hfetch : fetchWord s = some w) :
    toGo s.cfg (s.pc + 2#16) < toGo s.cfg s.pc := by
  obtain ⟨hpc, hsize⟩ := advancedPc_toNat hcfg hfetch
  rw [toGo, toGo, hpc]
  omega

/-- Less to go in the newest frame is a smaller value. -/
theorem framesValue_append_lt {cfg : Config} (frames : List Word) {v w : Word}
    (h : toGo cfg v < toGo cfg w) :
    framesValue cfg (frames ++ [v]) < framesValue cfg (frames ++ [w]) := by
  rw [framesValue_append, framesValue_append]
  exact Nat.add_lt_add_left h _

/-- A step from Running to Running lowers the measure. -/
theorem runMeasure_lt_of_step (hwf : s.WellFormed) (hrun : s.status = .running)
    (h : step s = .next t) (hrun' : t.status = .running) : runMeasure t < runMeasure s := by
  obtain ⟨hcfg, -, -, -, hsp⟩ := hwf
  have hbase (k : Nat) : 0 < (s.cfg.memSize + 1) ^ k := Nat.pow_pos (Nat.succ_pos _)
  cases (step_iff_transition hrun).mp h with
  | fault _ => simp at hrun'
  | halt _ => simp at hrun'
  | add hfetch =>
    exact Nat.mul_lt_mul_of_pos_right
      (framesValue_append_lt (liveStack s) (toGo_advancedPc_lt hcfg hfetch)) (hbase _)
  | @call a hfetch hdepth hslot =>
    have hfree : s.cfg.stackDepth - s.sp = (s.cfg.stackDepth - (s.sp + 1)) + 1 := by omega
    have hframes := framesValue_append_lt_mul (callTarget a)
      (framesValue_append_lt (liveStack s) (toGo_advancedPc_lt hcfg hfetch))
    simp only [runMeasure]
    rw [liveStack_push _ hslot, hfree, Nat.pow_succ', ← Nat.mul_assoc]
    exact Nat.mul_lt_mul_of_pos_right hframes (hbase _)
  | @ret v hfetch hpos hv =>
    have hfree : s.cfg.stackDepth - (s.sp - 1) = (s.cfg.stackDepth - s.sp) + 1 := by omega
    have hleft : 0 < toGo s.cfg s.pc := (Nat.zero_le _).trans_lt (toGo_advancedPc_lt hcfg hfetch)
    simp only [runMeasure]
    rw [← liveStack_pop v hpos hv, hfree, Nat.pow_succ', ← Nat.mul_assoc, framesValue_append]
    exact Nat.mul_lt_mul_of_pos_right (Nat.lt_add_of_pos_right hleft) (hbase _)

/-! ### Runs end, and single steps agree with them (R90, R91, R93, D14) -/

/-- Within more steps than its measure a state of the invariant reaches a terminal one. -/
theorem runWithin_ends (hinv : Inv s) (hlimit : runMeasure s < n) :
    ∃ t, runWithin n s = .next t ∧ t.status ≠ .running ∧ Inv t := by
  induction n generalizing s with
  | zero => exact absurd hlimit (Nat.not_lt_zero _)
  | succ n ih =>
    by_cases hrun : s.status = .running
    · have hwf : s.WellFormed := hinv.1
      obtain ⟨t, hstep, -⟩ := everyStepCompletesOrEndsRun s hwf hrun
      have hinv' : Inv t := stepKeepsInv s t hinv hstep
      rw [runWithin_succ hrun hstep]
      by_cases hrun' : t.status = .running
      · exact ih hinv' ((runMeasure_lt_of_step hwf hrun hstep hrun').trans_le
          (Nat.le_of_lt_succ hlimit))
      · exact ⟨t, runWithin_terminal hrun', hrun', hinv'⟩
    · exact ⟨s, runWithin_terminal hrun, hrun, hinv⟩

theorem run_ends (hinv : Inv s) : ∃ t, run s = .next t ∧ t.status ≠ .running ∧ Inv t := by
  obtain ⟨-, -, -, -, hsp⟩ := hinv.1
  exact runWithin_ends hinv (runMeasure_lt_runBound hsp)

theorem outcomeOf_running (h : s.status = .running) : outcomeOf s = none := by
  simp [outcomeOf, h]

theorem outcomeOf_halted (h : s.status = .halted) : outcomeOf s = some .halted := by
  simp [outcomeOf, h]

/-- A Faulted state of the invariant has a stop_pc to report. -/
theorem outcomeOf_faulted (h : s.status = .faulted) (hfit : stopFits s = true) :
    s.stop.stopPc = some s.pc ∧
      outcomeOf s = some (.faulted s.stop.reason s.stop.opcode s.pc) := by
  have hpc : s.stop.stopPc = some s.pc := by
    simp only [stopFits, h, Bool.and_eq_true, beq_iff_eq] at hfit
    exact hfit.1
  exact ⟨hpc, by simp [outcomeOf, h, hpc]⟩

/-- A terminal state whose record fits reports the Outcome of its status and record (R93). -/
theorem outcomeOf_terminal (hterm : s.status ≠ .running) (hfit : stopFits s = true) :
    (outcomeOf s = some .halted ↔ s.status = .halted) ∧
    (∀ (r : Reason) (o : Option Word) (a : Word), outcomeOf s = some (.faulted r o a) ↔
      s.status = .faulted ∧ s.stop.reason = r ∧ s.stop.opcode = o ∧ s.stop.stopPc = some a) ∧
    (outcomeOf s).isSome = true := by
  cases hs : s.status with
  | running => exact absurd hs hterm
  | halted => simp [outcomeOf_halted hs]
  | faulted =>
    obtain ⟨hpc, houtcome⟩ := outcomeOf_faulted hs hfit
    simp [houtcome, hpc]

/-- Settles O39: the run ends within its bound, and the two ways to end are the two Outcomes. -/
theorem runAlwaysEnds : Obligations.RunAlwaysEnds := by
  intro s hinv
  obtain ⟨t, hrun, hterm, hwf, hreturns, hfit⟩ := run_ends hinv
  obtain ⟨hhalted, hfaulted, hsome⟩ := outcomeOf_terminal hterm hfit
  exact ⟨t, hrun, hterm, hhalted, hfaulted, hsome, hwf, hreturns, hfit⟩

/-- Steps that reach a terminal state and a limited run that does reach the same one. -/
theorem eq_of_core_run_of_runWithin (h : core.run n s = .next t) (ht : t.status ≠ .running)
    (h' : runWithin m s = .next u) (hu : u.status ≠ .running) : u = t := by
  induction n generalizing s m with
  | zero =>
    obtain rfl := core_run_zero.mp h
    simpa [runWithin_terminal ht, eq_comm] using h'
  | succ n ih =>
    obtain ⟨v, hstep, hrest⟩ := core_run_succ.mp h
    by_cases hrun : s.status = .running
    · cases m with
      | zero =>
        rw [runWithin_zero] at h'
        cases h'
        exact absurd hrun hu
      | succ m =>
        rw [runWithin_succ hrun hstep] at h'
        exact ih hrest h'
    · rw [step_terminal hrun] at hstep
      cases hstep
      exact ih hrest h'

/-- Settles O40: the run ends too, and at the same state; a Running state has no Outcome. -/
theorem singleStepsAgreeWithRun : Obligations.SingleStepsAgreeWithRun := by
  intro n s t hinv h
  refine ⟨fun ht => ?_, outcomeOf_running⟩
  obtain ⟨u, hrun, hu, -⟩ := run_ends hinv
  rw [hrun, eq_of_core_run_of_runWithin h ht hrun hu]

end Sys2Proof.Machine
